-- ==== Sys2Proof/Word.lean ====
section
/-!
DEFINITION. The machine's words: the bit-vector types of 00_scope.md rule R11, and the case mode that CASE holds.
Every value of this hardware is unsigned (rule R8), so no signed operation is defined.
-/
namespace Sys2Proof

/-- Rule R11: `Bit` = {0, 1}. -/
abbrev Bit := BitVec 1

/-- Rule R11: a 4-bit unsigned value, half of a byte. -/
abbrev Nibble := BitVec 4

/-- Rule R11: an 8-bit unsigned value; read as an ASCII octet it is the rule's `Char`. -/
abbrev Byte := BitVec 8

/-- The 16-bit DATA and operand field of rules R60 and R61: two 8-bit lanes. -/
abbrev Data := BitVec 16

/-- Rule R11: the 32-bit command and response word (CMD_W and RSP_W of rule R6). -/
abbrev Word32 := BitVec 32

/-- Rule R11: `CaseMode` = {Lower, Upper}, stored in CASE as 0 and 1 (log entry 5). -/
inductive CaseMode where
  | lower
  | upper
deriving DecidableEq, Repr

/-- Rule R21: the bit CASE holds for a mode. -/
def CaseMode.bit : CaseMode → Bit
  | .lower => 0#1
  | .upper => 1#1

/-- Rule R21 read the other way: both values of the bit are legal (rule R22). -/
def CaseMode.ofBit (b : Bit) : CaseMode :=
  if b = 0#1 then .lower else .upper

end Sys2Proof
end

