-- ==== Sys2Proof/Config.lean ====
section
/-!
DEFINITION. The fixed values of 00_scope.md rule R6 ("None is a free parameter of the model"), as numbers.
The spec leaves no result of any command undefined, so there is no free value here.
-/
namespace Sys2Proof.Config

/-- BYTES_PER_CMD: bytes one ENC takes and one DEC gives. -/
def bytesPerCmd : Nat := 1

/-- Characters that stand for one byte in the text (00_scope.md glossary, 44_buffer_ops.md rule R142). -/
def charsPerByte : Nat := 2

/-- Modes of the forward table. -/
def caseModes : Nat := 2

/-- Entries of the forward table for each mode. -/
def forwardEntries : Nat := 16

/-- Entries of the reverse table. -/
def reverseEntries : Nat := 256

/-- Clocks from the accepting edge to the response in RSP. -/
def latency : Nat := 1

/-- Commands accepted per clock while `cmd_valid` stays 1. -/
def throughput : Nat := 1

/-- `cmd_ready` (10_state.md rules R27 and R31): a combinational constant 1. -/
def cmdReady : Bool := true

end Sys2Proof.Config
end

