-- ==== Sys2Proof/Syntax.lean ====
section
/-!
DEFINITION. The commands, one constructor for each row of spec/opcode_table.json.
Every operand has the exact width of its field (30_encoding.md rule R62), so each term of `Instr` is a legal command.
-/
namespace Sys2Proof

/-- The seven commands of 30_encoding.md rule R63. -/
inductive Instr where
  /-- NOP (rule R120). -/
  | nop
  /-- ENC (rule R101): encode the byte `b`. -/
  | enc (b : Byte)
  /-- DEC (rule R111): decode the pair, `c0` first (high nibble, operand A), `c1` second (low nibble, operand B). -/
  | dec (c0 c1 : Byte)
  /-- SETCASE (rule R121): set CASE to `m`. -/
  | setcase (m : CaseMode)
  /-- GETCASE (rule R122): read CASE. -/
  | getcase
  /-- LUTENC (rule R86): forward lookup of the nibble `n`. -/
  | lutenc (n : Nibble)
  /-- LUTDEC (rule R87): reverse lookup of the character `ch`. -/
  | lutdec (ch : Byte)
deriving DecidableEq, Repr

end Sys2Proof
end

