-- ==== Sys2Proof/WellFormed.lean ====
section
/-!
DEFINITION. Which command words are well formed: the legality predicate of 30_encoding.md rule R64, from its own
match and mask table. It is independent of the decoder (rule R67), and an obligation says that the two agree.
The terms of `Instr` need no check of their own: a field of exact width cannot hold an ill-formed operand.
-/
namespace Sys2Proof

/-- One row of rule R64: the bits the mask keeps must equal the pattern. -/
structure EncodingRow where
  mnemonic : String
  pattern  : Word32
  mask     : Word32
deriving DecidableEq, Repr

/-- Rule R64: `(cmd & row.mask) = row.match`. -/
def EncodingRow.accepts (r : EncodingRow) (w : Word32) : Bool :=
  w &&& r.mask == r.pattern

/-- The table of rule R64, in its order. -/
def encodingRows : List EncodingRow :=
  [ ⟨"NOP",     0x00000000, 0xFFFFFFFF⟩,
    ⟨"ENC",     0x10000000, 0xFFFFFF00⟩,
    ⟨"DEC",     0x20000000, 0xFFFF0000⟩,
    ⟨"SETCASE", 0x30000000, 0xFFFFFFFE⟩,
    ⟨"GETCASE", 0x40000000, 0xFFFFFFFF⟩,
    ⟨"LUTENC",  0x50000000, 0xFFFFFFF0⟩,
    ⟨"LUTDEC",  0x60000000, 0xFFFFFF00⟩ ]

/-- Rule R64: a word is legal iff some row accepts it. -/
def legal (w : Word32) : Bool :=
  encodingRows.any fun r => r.accepts w

/-- The row of rule R64 an instruction's words belong to. -/
def encodingRow : Instr → EncodingRow
  | .nop       => ⟨"NOP",     0x00000000, 0xFFFFFFFF⟩
  | .enc _     => ⟨"ENC",     0x10000000, 0xFFFFFF00⟩
  | .dec _ _   => ⟨"DEC",     0x20000000, 0xFFFF0000⟩
  | .setcase _ => ⟨"SETCASE", 0x30000000, 0xFFFFFFFE⟩
  | .getcase   => ⟨"GETCASE", 0x40000000, 0xFFFFFFFF⟩
  | .lutenc _  => ⟨"LUTENC",  0x50000000, 0xFFFFFFF0⟩
  | .lutdec _  => ⟨"LUTDEC",  0x60000000, 0xFFFFFF00⟩

end Sys2Proof
end

