-- ==== Sys2Proof/Machine/Operands.lean ====
section
/-!
DEFINITION. Every operand form: the fields of a command word (30_encoding.md rules R60 and R62), and the lanes of a
16-bit field (20_memory.md rule R44). No operand is extended, scaled or shifted.
-/
namespace Sys2Proof.Machine

/-- OP, cmd[31:28] (rule R60). -/
def cmdOp (w : Word32) : BitVec 4 := w.extractLsb' 28 4

/-- RES, cmd[27:16] (rule R60), zero in every legal word. -/
def cmdRes (w : Word32) : BitVec 12 := w.extractLsb' 16 12

/-- Operand B, cmd[15:8] (rule R60): lane 1. -/
def cmdB (w : Word32) : Byte := w.extractLsb' 8 8

/-- Operand A, cmd[7:0] (rule R60): lane 0. -/
def cmdA (w : Word32) : Byte := w.extractLsb' 0 8

/-- The nibble operand of LUTENC, cmd[3:0] (rule R62). -/
def cmdNibble (w : Word32) : Nibble := w.extractLsb' 0 4

/-- The case operand of SETCASE, cmd[0] (rule R62). -/
def cmdCase (w : Word32) : Bit := w.extractLsb' 0 1

/-- cmd[27:n] as a number: the bits from n up to OP that rule R64 asks to be zero. -/
def cmdFrom (w : Word32) (n : Nat) : Nat := w.toNat % 2 ^ 28 / 2 ^ n

/-- Rule R44: lane 0, bits [7:0], the element at the lower buffer offset. -/
def lane0 (d : Data) : Byte := d.extractLsb' 0 8

/-- Rule R44: lane 1, bits [15:8], the element at the higher offset. -/
def lane1 (d : Data) : Byte := d.extractLsb' 8 8

/-- `{l1, l0}` of rule R8: lane 1 in the high bits. -/
def lanes (l1 l0 : Byte) : Data := l1.setWidth 16 <<< 8 ||| l0.setWidth 16

/-- `b[7:4]` (00_scope.md glossary): the high nibble. -/
def highNibble (b : Byte) : Nibble := b.extractLsb' 4 4

/-- `b[3:0]` (00_scope.md glossary): the low nibble. -/
def lowNibble (b : Byte) : Nibble := b.extractLsb' 0 4

/-- `{n0, n1}` of 42_decoder.md rule R110: n0 * 16 + n1. -/
def joinNibbles (n0 n1 : Nibble) : Byte := n0.setWidth 8 <<< 4 ||| n1.setWidth 8

/-- `zext_16` of rule R8. -/
def zext16 {n : Nat} (v : BitVec n) : Data := v.setWidth 16

end Sys2Proof.Machine
end

