-- ==== Sys2Proof/Decode.lean ====
section
/-!
DEFINITION. Decoding (30_encoding.md rule R67), total on every 32-bit word and naming why a word is illegal, then the
encoder, written from the format of rule R60 and the opcode map of rules R63 and R64, then the host's view of the decoder.
-/
namespace Sys2Proof

/-- Why a word is illegal (rule R65). -/
inductive IllegalWord where
  /-- OP is 0x7 to 0xF. -/
  | undefinedOpcode (op : BitVec 4)
  /-- OP is 0x0 to 0x6 and a bit that the named command needs to be zero is 1. -/
  | mustBeZero (mnemonic : String)
deriving DecidableEq, Repr

/-- One line of rule R67: the command, if cmd[27:n] = 0. -/
def zeroFrom (n : Nat) (w : Word32) (mnemonic : String) (i : Instr) : Except IllegalWord Instr :=
  if Machine.cmdFrom w n = 0 then .ok i else .error (.mustBeZero mnemonic)

/-- Rule R67. -/
def decode (w : Word32) : Except IllegalWord Instr :=
  match (Machine.cmdOp w).toNat with
  | 0x0 => zeroFrom 0 w "NOP" .nop
  | 0x1 => zeroFrom 8 w "ENC" (.enc (Machine.cmdA w))
  | 0x2 => zeroFrom 16 w "DEC" (.dec (Machine.cmdA w) (Machine.cmdB w))
  | 0x3 => zeroFrom 1 w "SETCASE" (.setcase (CaseMode.ofBit (Machine.cmdCase w)))
  | 0x4 => zeroFrom 0 w "GETCASE" .getcase
  | 0x5 => zeroFrom 4 w "LUTENC" (.lutenc (Machine.cmdNibble w))
  | 0x6 => zeroFrom 8 w "LUTDEC" (.lutdec (Machine.cmdA w))
  | _   => .error (.undefinedOpcode (Machine.cmdOp w))

/-- The OP of each command (rule R63). -/
def opcode : Instr → BitVec 4
  | .nop       => 0x0
  | .enc _     => 0x1
  | .dec _ _   => 0x2
  | .setcase _ => 0x3
  | .getcase   => 0x4
  | .lutenc _  => 0x5
  | .lutdec _  => 0x6

/-- The operand half {B, A} of each command (rules R62 and R63), unused bits zero (rule R64). -/
def operandBits : Instr → Data
  | .nop        => 0
  | .enc b      => Machine.lanes 0 b
  | .dec c0 c1  => Machine.lanes c1 c0
  | .setcase m  => Machine.zext16 m.bit
  | .getcase    => 0
  | .lutenc n   => Machine.zext16 n
  | .lutdec ch  => Machine.lanes 0 ch

/-- The word of a command (rule R60): OP, RES = 0, B, A. -/
def encode (i : Instr) : Word32 :=
  (opcode i).setWidth 32 <<< 28 ||| (operandBits i).setWidth 32

/-- The low `nbits` bits of `w` as a command word, every bit above them 0. -/
def tableWord (nbits w : Nat) : Word32 := BitVec.ofNat 32 (w % 2 ^ nbits)

/-- The decoder on a word numbered as spec/opcode_table.json numbers it (a command is one whole word, rule R66). -/
def decodeTableWord (nbits w : Nat) : Option Instr :=
  match decode (tableWord nbits w) with
  | .ok i    => some i
  | .error _ => none

end Sys2Proof
end

