-- ==== Sys2Proof/Machine/State.lean ====
section
/-!
DEFINITION. The state of the block (10_state.md rules R20 to R27 and R31), its ports, and the reasons a run can stop.
-/
namespace Sys2Proof.Machine

/-- The input ports at one rising edge of `clk` (rule R27). Each is 0 or 1 (D33, log entry 10). -/
structure PortIn where
  /-- `rst`: synchronous, active-high reset. -/
  rst      : Bool
  /-- `cmd_valid`: `cmd` holds a command to accept at this edge. -/
  cmdValid : Bool
  /-- `cmd`: the command word. -/
  cmd      : Word32
deriving DecidableEq, Repr

/-- The output ports between two edges (rule R27). -/
structure PortOut where
  cmdReady : Bool
  rspValid : Bool
  rsp      : Word32
deriving DecidableEq, Repr

/-- Rule R26, and beside it what the input ports will be driven with. Plain data, no memory (rule R25). -/
structure State where
  /-- CASE (rule R21). -/
  caseMode : CaseMode
  /-- RSP (rule R23). -/
  rsp      : Word32
  /-- RSP_VALID (rule R23). -/
  rspValid : Bool
  /-- The model's own: the inputs of the coming edges, next edge first; past its end every edge is idle (log entry 1). -/
  inputs   : List PortIn
deriving DecidableEq, Repr

/-- Why a run stops with a fault. No command and no edge of the block faults (43_control.md rule R126). -/
inductive Fault where
  /-- 60_exceptions.md rule R163: raised by HexEncodeBuf and HexDecodeBuf before any command or write. Safe: the spec
  names this fault, and a faulted state is never final. In a `System` it ends its own operation alone (44_buffer_ops.md rule R150). -/
  | bufferTooSmall (needed capacity : Nat)
  /-- Raised by a host-level operation that reads or writes an index outside its buffer (20_memory.md rule R41). Safe:
  the rule says no operation does so. -/
  | bufferIndex (index length : Nat)
deriving DecidableEq, Repr

/-- Why the model gives no meaning. -/
inductive Refusal where
  /-- Raised by an arm of `exec` whose instruction has no meaning yet. Safe. No arm raises it now. -/
  | notModelled (mnemonic : String)
  /-- 20_memory.md rule R54: raised by HexEncodeBuf and HexDecodeBuf when src and dst overlap. Safe: the spec asks for it. -/
  | overlappingBuffers
  /-- 44_buffer_ops.md rule R147 point 3: raised when a host-level operation does not capture its response in the
  cycle it is valid. Safe: the spec asks for it. -/
  | responseNotCaptured
  /-- 44_buffer_ops.md rule R150 speaks of distinct buffers: raised by a call whose buffers another running operation
  writes, or whose dst another running operation reads, after the call's own checks have passed. Safe (log entry 9). -/
  | sharedBuffers
deriving DecidableEq, Repr

/-- 10_state.md rule R31: the state at the end of a reset edge, with nothing driven yet. -/
def State.reset : State where
  caseMode := .lower
  rsp      := 0x00000000
  rspValid := false
  inputs   := []

end Sys2Proof.Machine
end

