-- ==== Sys2Proof/Machine/Flags.lean ====
section
/-!
DEFINITION. What a response reports: STATUS, ERRMASK and the response word (30_encoding.md rules R61 and R70,
60_exceptions.md rules R160 to R162). The block has no flag register; these stand in each response alone (10_state.md
rule R25).
-/
namespace Sys2Proof.Machine

/-- The three STATUS codes the block produces (rule R160). -/
inductive Status where
  | ok
  | invalidChar
  | illegalCmd
deriving DecidableEq, Repr

/-- The code of each status (rules R61 and R160). -/
def Status.code : Status → BitVec 4
  | .ok          => 0
  | .invalidChar => 1
  | .illegalCmd  => 2

/-- ERRMASK `{~v1, ~v0}` of 42_decoder.md rule R111: bit 0 (word bit 16) says operand A is invalid, bit 1 (word bit 17)
says operand B is. -/
def errMask (validA validB : Bool) : BitVec 2 :=
  (BitVec.ofBool (!validB)).setWidth 2 <<< 1 ||| (BitVec.ofBool (!validA)).setWidth 2

/-- `Rsp(op, st, em, d) = op<<28 | st<<24 | em<<16 | d` (rule R61). -/
def rspWord (op : BitVec 4) (st : Status) (em : BitVec 2) (d : Data) : Word32 :=
  op.setWidth 32 <<< 28 ||| st.code.setWidth 32 <<< 24 ||| em.setWidth 32 <<< 16 ||| d.setWidth 32

/-- A response with STATUS = OK: ERRMASK 0 (rule R61). -/
def rspOk (op : BitVec 4) (d : Data) : Word32 := rspWord op .ok 0 d

/-- A response with STATUS = INVALID_CHAR: DATA 0 (rules R61 and R161). -/
def rspInvalidChar (op : BitVec 4) (em : BitVec 2) : Word32 := rspWord op .invalidChar em 0

/-- A response with STATUS = ILLEGAL_CMD: ERRMASK and DATA 0 (rules R65 and R162). -/
def rspIllegal (op : BitVec 4) : Word32 := rspWord op .illegalCmd 0 0

/-- OPECHO, r[31:28] (rule R70). -/
def rspOp (r : Word32) : BitVec 4 := r.extractLsb' 28 4

/-- STATUS, r[27:24] (rule R70). -/
def rspStatus (r : Word32) : BitVec 4 := r.extractLsb' 24 4

/-- r[23:18], always 0 (rule R70). -/
def rspZero (r : Word32) : BitVec 6 := r.extractLsb' 18 6

/-- ERRMASK, r[17:16] (rule R70). -/
def rspErrMask (r : Word32) : BitVec 2 := r.extractLsb' 16 2

/-- DATA, r[15:0] (rule R70). -/
def rspData (r : Word32) : Data := r.extractLsb' 0 16

end Sys2Proof.Machine
end

