-- ==== Sys2Proof/Machine/Ops.lean ====
section
/-!
DEFINITION. The operations every meaning and every edge is made of. The block has no trap (60_exceptions.md rule R166):
an error is reported in the response and changes nothing else, so the shared operations for it stand here in the place of
taking an exception, and there is nothing to return from (rule R167).
-/
namespace Sys2Proof.Machine

/-- Run `f` on the state an outcome gives, and stop where it stops. -/
def andThen {σ τ φ ρ : Type} (o : Host.Outcome σ φ ρ) (f : σ → Host.Outcome τ φ ρ) : Host.Outcome τ φ ρ :=
  match o with
  | .next s    => f s
  | .fault r   => .fault r
  | .refused r => .refused r

/-- The one write of CASE by a command (10_state.md rule R22). -/
def setCaseMode (m : CaseMode) (s : State) : State := { s with caseMode := m }

/-- 10_state.md rule R23, an accepting edge: RSP takes the response word and RSP_VALID takes 1. -/
def respond (r : Word32) (s : State) : State := { s with rsp := r, rspValid := true }

/-- A command that succeeds: STATUS = OK with its DATA. -/
def completeOk (op : BitVec 4) (d : Data) (s : State) : Host.Outcome State Fault Refusal :=
  .next (respond (rspOk op d) s)

/-- The INVALID_CHAR error (60_exceptions.md rule R161): reported in the response, nothing else changes (rule R166). -/
def raiseInvalidChar (op : BitVec 4) (em : BitVec 2) (s : State) : Host.Outcome State Fault Refusal :=
  .next (respond (rspInvalidChar op em) s)

/-- The ILLEGAL_CMD error (60_exceptions.md rule R162, 43_control.md rule R123): reported in the response, nothing else
changes. -/
def raiseIllegal (op : BitVec 4) (s : State) : Host.Outcome State Fault Refusal :=
  .next (respond (rspIllegal op) s)

/-- The reset step of 43_control.md rule R125 (70_reset_and_hazards.md rule R180). What the ports are driven with at later
edges is not the block's to change. -/
def resetEdge (s : State) : State := { State.reset with inputs := s.inputs }

/-- The idle step of 43_control.md rule R125: RSP_VALID falls, CASE and RSP hold. -/
def idleEdge (s : State) : State := { s with rspValid := false }

/-- The inputs of an edge nothing is driven at (log entry 1). -/
def idleIn : PortIn := ⟨false, false, 0⟩

/-- The inputs of an edge at which the command word `w` is presented. -/
def commandIn (w : Word32) : PortIn := ⟨false, true, w⟩

/-- The inputs of an edge at which reset is driven, with whatever stands on the command port. -/
def resetIn (cmdValid : Bool) (w : Word32) : PortIn := ⟨true, cmdValid, w⟩

/-- Sample the input ports at an edge: the first entry of `inputs`, an idle edge past its end (log entry 1). -/
def sample (s : State) : PortIn :=
  match s.inputs with
  | []     => idleIn
  | p :: _ => p

/-- The state as the edge finds it, with the sampled entry taken off. -/
def afterSample (s : State) : State := { s with inputs := s.inputs.tail }

/-- Drive the ports with `p` at the next edge, before whatever is driven already. -/
def present (p : PortIn) (s : State) : State := { s with inputs := p :: s.inputs }

/-- The output ports between edges (10_state.md rules R23 and R27). -/
def outputs (s : State) : PortOut := ⟨Config.cmdReady, s.rspValid, s.rsp⟩

/-- What a host captures in the cycle after an edge: `rsp` if `rsp_valid` = 1 (60_exceptions.md rule R172). -/
def capture (s : State) : Option Word32 :=
  if (outputs s).rspValid then some (outputs s).rsp else none

end Sys2Proof.Machine
end

