-- ==== Sys2Proof/Machine/Control.lean ====
section
/-!
DEFINITION. The control commands (43_control.md rules R120 to R123).
-/
namespace Sys2Proof.Machine

/-- NOP (rule R120): a response and nothing else. -/
def execNop (s : State) : Host.Outcome State Fault Refusal :=
  completeOk 0x0 0x0000 s

/-- SETCASE (rule R121): CASE takes the operand and DATA echoes it. -/
def execSetcase (m : CaseMode) (s : State) : Host.Outcome State Fault Refusal :=
  completeOk 0x3 (zext16 m.bit) (setCaseMode m s)

/-- GETCASE (rule R122). -/
def execGetcase (s : State) : Host.Outcome State Fault Refusal :=
  completeOk 0x4 (zext16 s.caseMode.bit) s

/-- A word that is no command (rule R123): only its OP is examined, for OPECHO. -/
def execIllegal (w : Word32) (s : State) : Host.Outcome State Fault Refusal :=
  raiseIllegal (cmdOp w) s

end Sys2Proof.Machine
end

