-- ==== Sys2Proof/Machine/Lut.lean ====
section
/-!
DEFINITION. `hex_nibble_lut`, the dual-case lookup (40_lut.md), and the two commands that use one lookup directly.
The code points are ASCII, which the spec supplies from general knowledge (93_implementation_defined.md G1).
-/
namespace Sys2Proof.Machine

/-- The forward lookup `LutEnc` (rule R80). -/
def lutEnc (nib : Nibble) (m : CaseMode) : Byte :=
  if nib ≤ 9 then 0x30 + nib.setWidth 8
  else match m with
    | .lower => 0x61 + (nib.setWidth 8 - 10)
    | .upper => 0x41 + (nib.setWidth 8 - 10)

/-- The forward table (rule R81), one column a mode, indexed by the nibble. -/
def forwardTable : CaseMode → List Byte
  | .lower => [0x30, 0x31, 0x32, 0x33, 0x34, 0x35, 0x36, 0x37, 0x38, 0x39, 0x61, 0x62, 0x63, 0x64, 0x65, 0x66]
  | .upper => [0x30, 0x31, 0x32, 0x33, 0x34, 0x35, 0x36, 0x37, 0x38, 0x39, 0x41, 0x42, 0x43, 0x44, 0x45, 0x46]

/-- What the reverse lookup answers (rule R83): a valid bit and a nibble. -/
structure LutDecOut where
  valid : Bool
  nib   : Nibble
deriving DecidableEq, Repr

/-- The reverse lookup `LutDec` (rule R83); it has no case input (rule R84). -/
def lutDec (ch : Byte) : LutDecOut :=
  if 0x30 ≤ ch ∧ ch ≤ 0x39 then ⟨true, (ch - 0x30).setWidth 4⟩
  else if 0x41 ≤ ch ∧ ch ≤ 0x46 then ⟨true, (ch - 0x41 + 10).setWidth 4⟩
  else if 0x61 ≤ ch ∧ ch ≤ 0x66 then ⟨true, (ch - 0x61 + 10).setWidth 4⟩
  else ⟨false, 0⟩

/-- One row of the range table of rule R83: octets lo to hi; `bias` is what a valid row subtracts from the octet. -/
structure ReverseRange where
  lo    : Nat
  hi    : Nat
  valid : Bool
  bias  : Nat
deriving DecidableEq, Repr

/-- The range table of rule R83. -/
def reverseRanges : List ReverseRange :=
  [ ⟨0x00, 0x2F, false, 0⟩, ⟨0x30, 0x39, true, 0x30⟩, ⟨0x3A, 0x40, false, 0⟩, ⟨0x41, 0x46, true, 0x37⟩,
    ⟨0x47, 0x60, false, 0⟩, ⟨0x61, 0x66, true, 0x57⟩, ⟨0x67, 0x7F, false, 0⟩, ⟨0x80, 0xFF, false, 0⟩ ]

/-- The answer a row of the range table gives for an octet of its range. -/
def ReverseRange.answer (r : ReverseRange) (ch : Byte) : LutDecOut :=
  ⟨r.valid, if r.valid then BitVec.ofNat 4 (ch.toNat - r.bias) else 0⟩

/-- 00_scope.md rule R12: the lower alphabet, '0' to '9' then 'a' to 'f'. -/
def lowerAlphabet : List Byte :=
  [0x30, 0x31, 0x32, 0x33, 0x34, 0x35, 0x36, 0x37, 0x38, 0x39, 0x61, 0x62, 0x63, 0x64, 0x65, 0x66]

/-- 00_scope.md rule R12: the upper alphabet, '0' to '9' then 'A' to 'F'. -/
def upperAlphabet : List Byte :=
  [0x30, 0x31, 0x32, 0x33, 0x34, 0x35, 0x36, 0x37, 0x38, 0x39, 0x41, 0x42, 0x43, 0x44, 0x45, 0x46]

/-- The alphabet a mode selects (rule R12). -/
def alphabet : CaseMode → List Byte
  | .lower => lowerAlphabet
  | .upper => upperAlphabet

/-- Rule R12: the accepted alphabet is the union of the two, 22 distinct characters. -/
def acceptedAlphabet : List Byte := (lowerAlphabet ++ upperAlphabet).dedup

/-- ASCII case folding to lower (rule R85 law 3): 0x41 to 0x5A map to +0x20. -/
def toLowerASCII (ch : Byte) : Byte := if 0x41 ≤ ch ∧ ch ≤ 0x5A then ch + 0x20 else ch

/-- ASCII case folding to upper (rule R85 law 3): 0x61 to 0x7A map to -0x20. -/
def toUpperASCII (ch : Byte) : Byte := if 0x61 ≤ ch ∧ ch ≤ 0x7A then ch - 0x20 else ch

/-- The input ports of `hex_nibble_lut` (10_state.md rule R28). -/
structure LutIn where
  encNib   : Nibble
  encUpper : Bit
  decChar  : Byte
deriving DecidableEq, Repr

/-- The output ports of `hex_nibble_lut` (10_state.md rule R28). -/
structure LutOut where
  encChar  : Byte
  decValid : Bool
  decNib   : Nibble
deriving DecidableEq, Repr

/-- `hex_nibble_lut` (10_state.md rule R28): combinational, two independent halves. -/
def hexNibbleLut (i : LutIn) : LutOut where
  encChar  := lutEnc i.encNib (CaseMode.ofBit i.encUpper)
  decValid := (lutDec i.decChar).valid
  decNib   := (lutDec i.decChar).nib

/-- LUTENC (rule R86). -/
def execLutenc (n : Nibble) (s : State) : Host.Outcome State Fault Refusal :=
  completeOk 0x5 (zext16 (lutEnc n s.caseMode)) s

/-- LUTDEC (rule R87): ERRMASK 0b01, because operand A is the invalid one. -/
def execLutdec (ch : Byte) (s : State) : Host.Outcome State Fault Refusal :=
  if (lutDec ch).valid then completeOk 0x6 (zext16 (lutDec ch).nib) s
  else raiseInvalidChar 0x6 0b01 s

end Sys2Proof.Machine
end

