-- ==== Sys2Proof/Machine/Decoder.lean ====
section
/-!
DEFINITION. `parallel_nibble_decoder` and DEC (42_decoder.md).
-/
namespace Sys2Proof.Machine

/-- The output ports of `parallel_nibble_decoder` (10_state.md rule R30). -/
structure DecPairOut where
  byteOut : Byte
  valid0  : Bool
  valid1  : Bool
  ok      : Bool
deriving DecidableEq, Repr

/-- `DecPair` (rule R110): both characters classified at once, in two reverse halves; no case input. -/
def decPair (c0 c1 : Byte) : DecPairOut :=
  let l0 := hexNibbleLut ⟨0, 0, c0⟩
  let l1 := hexNibbleLut ⟨0, 0, c1⟩
  let ok := l0.decValid && l1.decValid
  ⟨if ok then joinNibbles l0.decNib l1.decNib else 0x00, l0.decValid, l1.decValid, ok⟩

/-- DEC (rule R111): every invalid operand is named in ERRMASK. -/
def execDec (c0 c1 : Byte) (s : State) : Host.Outcome State Fault Refusal :=
  if (decPair c0 c1).ok then completeOk 0x2 (zext16 (decPair c0 c1).byteOut) s
  else raiseInvalidChar 0x2 (errMask (decPair c0 c1).valid0 (decPair c0 c1).valid1) s

end Sys2Proof.Machine
end

