-- ==== Sys2Proof/Machine/Encoder.lean ====
section
/-!
DEFINITION. `parallel_nibble_encoder` and ENC (41_encoder.md).
-/
namespace Sys2Proof.Machine

/-- The output ports of `parallel_nibble_encoder` (10_state.md rule R29). -/
structure EncPairOut where
  /-- The character of the high nibble, first in text order. -/
  char0 : Byte
  /-- The character of the low nibble, second in text order. -/
  char1 : Byte
deriving DecidableEq, Repr

/-- `EncPair` (rule R100): both nibbles looked up at once, in two forward halves with the same alphabet select. -/
def encPair (b : Byte) (m : CaseMode) : EncPairOut where
  char0 := (hexNibbleLut ⟨highNibble b, m.bit, 0⟩).encChar
  char1 := (hexNibbleLut ⟨lowNibble b, m.bit, 0⟩).encChar

/-- ENC (rule R101): DATA[7:0] = char0 and DATA[15:8] = char1. -/
def execEnc (b : Byte) (s : State) : Host.Outcome State Fault Refusal :=
  completeOk 0x1 (lanes (encPair b s.caseMode).char1 (encPair b s.caseMode).char0) s

end Sys2Proof.Machine
end

