-- ==== Sys2Proof/Machine/Dispatch.lean ====
section
/-!
DEFINITION. One arm for each command (43_control.md rule R124).
-/
namespace Sys2Proof.Machine

def exec (i : Instr) (s : State) : Host.Outcome State Fault Refusal :=
  match i with
  | .nop => Sys2Proof.Machine.execNop s
  | .enc b => Sys2Proof.Machine.execEnc b s
  | .dec c0 c1 => Sys2Proof.Machine.execDec c0 c1 s
  | .setcase m => Sys2Proof.Machine.execSetcase m s
  | .getcase => Sys2Proof.Machine.execGetcase s
  | .lutenc n => Sys2Proof.Machine.execLutenc n s
  | .lutdec ch => Sys2Proof.Machine.execLutdec ch s

end Sys2Proof.Machine
end

