-- ==== Sys2Proof/Machine/Edge.lean ====
section
/-!
DEFINITION. One rising edge of `clk` (43_control.md rule R125), for given inputs.
-/
namespace Sys2Proof.Machine

/-- The accept step: the decoded command's meaning, or the illegal response (rules R123 and R124). -/
def accept (w : Word32) (s : State) : Host.Outcome State Fault Refusal :=
  match decode w with
  | .ok i    => exec i s
  | .error _ => execIllegal w s

/-- Rule R125: exactly one of the reset, accept and idle steps, reset first. -/
def edge (p : PortIn) (s : State) : Host.Outcome State Fault Refusal :=
  if p.rst then .next (resetEdge s)
  else if p.cmdValid then accept p.cmd s
  else .next (idleEdge s)

/-- One step of the machine: sample the ports, then the edge. -/
def clockEdge (s : State) : Host.Outcome State Fault Refusal :=
  edge (sample s) (afterSample s)

end Sys2Proof.Machine
end

