-- ==== Sys2Proof/Machine/Step.lean ====
section
/-!
DEFINITION. The step of the machine, and how one command is put where the next step takes it.
-/
namespace Sys2Proof.Machine

/-- One rising edge of `clk`. -/
def step (s : State) : Host.Outcome State Fault Refusal := clockEdge s

/-- `s` with the command word presented at the next edge (log entry 2). -/
def State.withFetchWord (s : State) (nbits w : Nat) : State := present (commandIn (tableWord nbits w)) s

end Sys2Proof.Machine
end

