-- ==== Sys2Proof/Machine/Transaction.lean ====
section
/-!
DEFINITION. The transaction level (43_control.md rule R124): `Exec` as a function of CASE and the command word alone,
written from the rule's own table and independent of `exec`; and what a host sees of a run of edges. Obligations say
that the two levels agree (rule R126).
-/
namespace Sys2Proof.Machine

/-- `Exec(CASE, cmd)` of rule R124. -/
def transact (c : CaseMode) (w : Word32) : CaseMode × Word32 :=
  match decode w with
  | .ok .nop         => (c, rspWord 0x0 .ok 0b00 0x0000)
  | .ok (.enc b)     => (c, rspWord 0x1 .ok 0b00 (lanes (lutEnc (lowNibble b) c) (lutEnc (highNibble b) c)))
  | .ok (.dec c0 c1) =>
    if (lutDec c0).valid && (lutDec c1).valid then
      (c, rspWord 0x2 .ok 0b00 (zext16 (joinNibbles (lutDec c0).nib (lutDec c1).nib)))
    else (c, rspWord 0x2 .invalidChar (errMask (lutDec c0).valid (lutDec c1).valid) 0x0000)
  | .ok (.setcase m) => (m, rspWord 0x3 .ok 0b00 (zext16 m.bit))
  | .ok .getcase     => (c, rspWord 0x4 .ok 0b00 (zext16 c.bit))
  | .ok (.lutenc n)  => (c, rspWord 0x5 .ok 0b00 (zext16 (lutEnc n c)))
  | .ok (.lutdec ch) =>
    if (lutDec ch).valid then (c, rspWord 0x6 .ok 0b00 (zext16 (lutDec ch).nib))
    else (c, rspWord 0x6 .invalidChar 0b01 0x0000)
  | .error _         => (c, rspWord (cmdOp w) .illegalCmd 0b00 0x0000)

/-- Fold `Exec` over a stream of commands (rule R126 point 2): the CASE at the end and the responses in order. -/
def transactAll (c : CaseMode) : List Word32 → CaseMode × List Word32
  | []      => (c, [])
  | w :: ws =>
    let (c', r) := transact c w
    let (c'', rs) := transactAll c' ws
    (c'', r :: rs)

/-- The commands a stream of edge inputs gets accepted: those presented at edges without reset. -/
def acceptedCommands (ps : List PortIn) : List Word32 :=
  ps.filterMap fun p => if !p.rst && p.cmdValid then some p.cmd else none

/-- `k` edges in a row. -/
def edges : Nat → State → Host.Outcome State Fault Refusal
  | 0, s     => .next s
  | k + 1, s => andThen (step s) (edges k)

/-- The responses a host that captures in every cycle sees over `k` edges (70_reset_and_hazards.md rule R184). -/
def responses : Nat → State → List Word32
  | 0, _     => []
  | k + 1, s =>
    match step s with
    | .next t    => (capture t).toList ++ responses k t
    | .fault _   => []
    | .refused _ => []

end Sys2Proof.Machine
end

