-- ==== Sys2Proof/Machine/Asm.lean ====
section
/-!
DEFINITION. The assembler notation (30_encoding.md rules R68 and R69): statements, the words they stand for, the
disassembler, and the reader of one line of text. A line is a list of characters.
-/
namespace Sys2Proof.Machine

/-- One command of the notation, operands as the numbers that are written (rules R68 and R69). -/
inductive AsmStmt where
  | nop
  | enc (b : Nat)
  | dec (c0 c1 : Nat)
  | setcase (m : Nat)
  | getcase
  | lutenc (n : Nat)
  | lutdec (ch : Nat)
  /-- `LOWER`, which expands to SETCASE 0. -/
  | lower
  /-- `UPPER`, which expands to SETCASE 1. -/
  | upper
  /-- `.word`: any raw word. -/
  | word (w : Nat)
deriving DecidableEq, Repr

/-- Why a line is an assembly error ("and not a command", rule R68). -/
inductive AsmError where
  | operandOutOfRange
  | unknownMnemonic
  | badOperands
  | badToken
deriving DecidableEq, Repr

/-- Rule R68's ranges: a byte or character is 0..255, a nibble 0..15, a mode 0 or 1, a raw word 32 bits. -/
def asmInRange : AsmStmt → Bool
  | .nop       => true
  | .enc b     => decide (b < 256)
  | .dec c0 c1 => decide (c0 < 256) && decide (c1 < 256)
  | .setcase m => decide (m < 2)
  | .getcase   => true
  | .lutenc n  => decide (n < 16)
  | .lutdec ch => decide (ch < 256)
  | .lower     => true
  | .upper     => true
  | .word w    => decide (w < 2 ^ 32)

/-- The word of a statement whose operands are in range. -/
def asmWord : AsmStmt → Word32
  | .nop       => encode .nop
  | .enc b     => encode (.enc (BitVec.ofNat 8 b))
  | .dec c0 c1 => encode (.dec (BitVec.ofNat 8 c0) (BitVec.ofNat 8 c1))
  | .setcase m => encode (.setcase (CaseMode.ofBit (BitVec.ofNat 1 m)))
  | .getcase   => encode .getcase
  | .lutenc n  => encode (.lutenc (BitVec.ofNat 4 n))
  | .lutdec ch => encode (.lutdec (BitVec.ofNat 8 ch))
  | .lower     => encode (.setcase .lower)
  | .upper     => encode (.setcase .upper)
  | .word w    => BitVec.ofNat 32 w

/-- Assemble a statement (rule R68: "An operand out of range is an assembly error and not a command"). -/
def assemble (a : AsmStmt) : Except AsmError Word32 :=
  if asmInRange a then .ok (asmWord a) else .error .operandOutOfRange

/-- The statement a disassembler prints for a command: SETCASE, never the pseudo-instruction (rule R69). -/
def asmOfInstr : Instr → AsmStmt
  | .nop       => .nop
  | .enc b     => .enc b.toNat
  | .dec c0 c1 => .dec c0.toNat c1.toNat
  | .setcase m => .setcase m.bit.toNat
  | .getcase   => .getcase
  | .lutenc n  => .lutenc n.toNat
  | .lutdec ch => .lutdec ch.toNat

/-- The statement a disassembler prints for a word: `.word` is the only way to write an illegal one (rule R68). -/
def disassemble (w : Word32) : AsmStmt :=
  match decode w with
  | .ok i    => asmOfInstr i
  | .error _ => .word w.toNat

/-! ### Lines of text -/

/-- A token of a line: a bare word, a character literal, a comma. -/
inductive Token where
  | bare (cs : List Char)
  | lit (c : Char)
  | comma
deriving DecidableEq, Repr

/-- End the bare word read so far, whose characters stand in reverse. -/
def flushWord (acc : List Char) (ts : List Token) : List Token :=
  match acc with
  | []     => ts
  | _ :: _ => .bare acc.reverse :: ts

/-- Split a line into tokens. DESIGN CHOICE (log entry 11), where rule R68 is silent: a blank is a space or a tab and ends a
bare word, but none is needed beside a comma or a character literal, so `ENC'a'` reads as `ENC 'a'`; inside a literal
`;`, `,`, a blank and a quote are plain characters; a `;` elsewhere ends the line. -/
def tokens (acc : List Char) : List Char → Except AsmError (List Token)
  | [] => .ok (flushWord acc [])
  | '\'' :: c :: '\'' :: rest => (tokens [] rest).map fun ts => flushWord acc (.lit c :: ts)
  | c :: rest =>
    if c = ';' then .ok (flushWord acc [])
    else if c = ' ' ∨ c = '\t' then (tokens [] rest).map (flushWord acc)
    else if c = ',' then (tokens [] rest).map fun ts => flushWord acc (.comma :: ts)
    else if c = '\'' then .error .badToken
    else tokens (c :: acc) rest

/-- The value of a decimal digit. -/
def decDigit (c : Char) : Option Nat :=
  if 48 ≤ c.toNat ∧ c.toNat ≤ 57 then some (c.toNat - 48) else none

/-- The value of a hexadecimal digit of either case: a character of the accepted alphabet (rule R83). -/
def hexDigit (c : Char) : Option Nat :=
  if c.toNat < 256 ∧ (lutDec (BitVec.ofNat 8 c.toNat)).valid then some (lutDec (BitVec.ofNat 8 c.toNat)).nib.toNat
  else none

/-- Digits of a base, most significant first. -/
def digits (base : Nat) (value : Char → Option Nat) (acc : Nat) : List Char → Option Nat
  | []      => some acc
  | c :: cs =>
    match value c with
    | some d => digits base value (acc * base + d) cs
    | none   => none

/-- `0x` and at least one hexadecimal digit. -/
def hexNumber (cs : List Char) : Option Nat :=
  match cs with
  | '0' :: 'x' :: d :: ds => digits 16 hexDigit 0 (d :: ds)
  | _                     => none

/-- A number, in decimal or with a 0x prefix. Rule R68 gives these forms for a byte; that a character's and a nibble's
number have them too is log entry 11. -/
def number (cs : List Char) : Option Nat :=
  match cs with
  | '0' :: 'x' :: _ => hexNumber cs
  | d :: ds         => digits 10 decDigit 0 (d :: ds)
  | []              => none

/-- ASCII lower case of a letter, for the case-insensitive words of rule R68. -/
def lowerChar (c : Char) : Char :=
  if 65 ≤ c.toNat ∧ c.toNat ≤ 90 then Char.ofNat (c.toNat + 32) else c

/-- A `<byte>` or `<char>` operand: a number, or the ASCII code point of a literal (00_scope.md rule R9). -/
def charOperand : Token → Option Nat
  | .bare cs => number cs
  | .lit c   => if c.toNat < 128 then some c.toNat else none
  | .comma   => none

/-- A `<nibble>` operand: a number. -/
def nibbleOperand : Token → Option Nat
  | .bare cs => number cs
  | .lit _   => none
  | .comma   => none

/-- A `<mode>` operand: `0`, `1`, `lower` (= 0) or `upper` (= 1). -/
def modeOperand : Token → Option Nat
  | .bare cs =>
    if cs = ['0'] then some 0
    else if cs = ['1'] then some 1
    else if cs.map lowerChar = ['l', 'o', 'w', 'e', 'r'] then some 0
    else if cs.map lowerChar = ['u', 'p', 'p', 'e', 'r'] then some 1
    else none
  | .lit _   => none
  | .comma   => none

/-- A `<hex32>` operand of `.word`. -/
def hexOperand : Token → Option Nat
  | .bare cs => hexNumber cs
  | .lit _   => none
  | .comma   => none

/-- A statement with no operand. -/
def noOperand (a : AsmStmt) : List Token → Except AsmError (Option AsmStmt)
  | []     => .ok (some a)
  | _ :: _ => .error .badOperands

/-- A statement with one operand. -/
def oneOperand (read : Token → Option Nat) (mk : Nat → AsmStmt) : List Token → Except AsmError (Option AsmStmt)
  | [t] =>
    match read t with
    | some v => .ok (some (mk v))
    | none   => .error .badOperands
  | _   => .error .badOperands

/-- A statement with two character operands and a comma between them. -/
def twoOperands (mk : Nat → Nat → AsmStmt) : List Token → Except AsmError (Option AsmStmt)
  | [t, .comma, u] =>
    match charOperand t, charOperand u with
    | some v, some w => .ok (some (mk v w))
    | _, _           => .error .badOperands
  | _ => .error .badOperands

/-- A statement from its mnemonic, in lower case, and its operand tokens (rules R68 and R69). -/
def statement (m : List Char) (ts : List Token) : Except AsmError (Option AsmStmt) :=
  if m = ['n', 'o', 'p'] then noOperand .nop ts
  else if m = ['e', 'n', 'c'] then oneOperand charOperand .enc ts
  else if m = ['d', 'e', 'c'] then twoOperands .dec ts
  else if m = ['s', 'e', 't', 'c', 'a', 's', 'e'] then oneOperand modeOperand .setcase ts
  else if m = ['g', 'e', 't', 'c', 'a', 's', 'e'] then noOperand .getcase ts
  else if m = ['l', 'u', 't', 'e', 'n', 'c'] then oneOperand nibbleOperand .lutenc ts
  else if m = ['l', 'u', 't', 'd', 'e', 'c'] then oneOperand charOperand .lutdec ts
  else if m = ['l', 'o', 'w', 'e', 'r'] then noOperand .lower ts
  else if m = ['u', 'p', 'p', 'e', 'r'] then noOperand .upper ts
  else if m = ['.', 'w', 'o', 'r', 'd'] then oneOperand hexOperand .word ts
  else .error .unknownMnemonic

/-- Read one line: at most one command; a line with no token holds none (log entry 11). -/
def parseLine (line : List Char) : Except AsmError (Option AsmStmt) :=
  match tokens [] line with
  | .error e               => .error e
  | .ok []                 => .ok none
  | .ok (.bare cs :: ts)   => statement (cs.map lowerChar) ts
  | .ok (.lit _ :: _)      => .error .unknownMnemonic
  | .ok (.comma :: _)      => .error .unknownMnemonic

/-- Assemble one line of text. -/
def assembleLine (line : List Char) : Except AsmError (Option Word32) :=
  match parseLine line with
  | .error e     => .error e
  | .ok none     => .ok none
  | .ok (some a) => (assemble a).map some

/-- Assemble lines of text into command words, in order; the first error ends it (log entry 11). -/
def assembleLines : List (List Char) → Except AsmError (List Word32)
  | []      => .ok []
  | l :: ls =>
    match assembleLine l with
    | .error e     => .error e
    | .ok none     => assembleLines ls
    | .ok (some w) => (assembleLines ls).map (w :: ·)

/-- A hexadecimal digit as it is printed (the upper alphabet of 00_scope.md rule R12). -/
def hexChar (n : Nat) : Char := Char.ofNat (lutEnc (BitVec.ofNat 4 n) .upper).toNat

/-- A number printed with a 0x prefix and `width` digits, most significant first. -/
def hexText (width n : Nat) : List Char :=
  '0' :: 'x' :: (List.range width).reverse.map fun i => hexChar (n / 16 ^ i)

/-- The line a disassembler prints for a statement (rule R68, log entry 11). -/
def asmText : AsmStmt → List Char
  | .nop       => ['N', 'O', 'P']
  | .enc b     => ['E', 'N', 'C', ' '] ++ hexText 2 b
  | .dec c0 c1 => ['D', 'E', 'C', ' '] ++ hexText 2 c0 ++ [',', ' '] ++ hexText 2 c1
  | .setcase m => ['S', 'E', 'T', 'C', 'A', 'S', 'E', ' '] ++ (if m = 0 then ['0'] else ['1'])
  | .getcase   => ['G', 'E', 'T', 'C', 'A', 'S', 'E']
  | .lutenc n  => ['L', 'U', 'T', 'E', 'N', 'C', ' '] ++ hexText 1 n
  | .lutdec ch => ['L', 'U', 'T', 'D', 'E', 'C', ' '] ++ hexText 2 ch
  | .lower     => ['L', 'O', 'W', 'E', 'R']
  | .upper     => ['U', 'P', 'P', 'E', 'R']
  | .word w    => ['.', 'w', 'o', 'r', 'd', ' '] ++ hexText 8 w

/-- The inputs of one command an edge: a program's words as a host drives them (95_test_vectors.md section 8). -/
def programInputs (ws : List Word32) : List PortIn := ws.map commandIn

end Sys2Proof.Machine
end

