-- ==== Sys2Proof/Machine/HostOps.lean ====
section
/-!
DEFINITION. The host-level buffer operations (44_buffer_ops.md). A host-level operation is a host agent's, not the
block's: it holds its buffers, its loop index and its status, presents one command at a time, and takes every character
or byte value from a captured response (rule R140). First one operation run alone, then several beside one block
(rule R150), then the operations as functions on texts, against which the first are stated.
-/
namespace Sys2Proof.Machine

/-! ### Buffers (20_memory.md rules R41 and R45) -/

/-- A host buffer: the address of its first byte, and its bytes, indexed from 0. A destination's capacity is its length. -/
structure Buffer where
  base  : Nat
  bytes : List Byte
deriving DecidableEq, Repr

/-- The buffer's length, or its capacity as a destination. -/
def bufLen (b : Buffer) : Nat := b.bytes.length

/-- `MemRead(buf, i, 1)` (rule R41), defined for i below the length. -/
def bufRead (b : Buffer) (i : Nat) : Host.Outcome Byte Fault Refusal :=
  match b.bytes[i]? with
  | some v => .next v
  | none   => .fault (.bufferIndex i (bufLen b))

/-- `MemWrite(buf, i, 1, v)` (rule R41), defined for i below the capacity. -/
def bufWrite (b : Buffer) (i : Nat) (v : Byte) : Host.Outcome Buffer Fault Refusal :=
  if i < bufLen b then .next { b with bytes := b.bytes.set i v }
  else .fault (.bufferIndex i (bufLen b))

/-- Two buffers overlap when they share the address of a byte (20_memory.md rule R54, log entry 7). -/
def bufOverlap (a b : Buffer) : Bool :=
  decide (0 < bufLen a) && decide (0 < bufLen b) &&
    decide (a.base < b.base + bufLen b) && decide (b.base < a.base + bufLen a)

/-! ### One host-level operation -/

/-- HexEncodeBuf (rule R142) or HexDecodeBuf (rule R143). -/
inductive OpKind where
  | encode
  | decode
deriving DecidableEq, Repr

/-- Where a host-level operation stands (60_exceptions.md rule R160). -/
inductive OpStatus where
  /-- Commands are still to be issued. -/
  | running
  /-- `return (n, OK)`. -/
  | ok (n : Nat)
  /-- `return (n, InvalidCharacter(pos))`. -/
  | invalidCharacter (n pos : Nat)
  /-- `raise <Fault>(info)`: ended by a fault, with no count (00_scope.md rule R10, 60_exceptions.md rule R163). -/
  | faulted (f : Fault)
deriving DecidableEq, Repr

/-- A host-level operation in progress: the loop of rule R142 or R143 at index `idx`. -/
structure HostOp where
  kind   : OpKind
  src    : Buffer
  dst    : Buffer
  /-- The loop index i. -/
  idx    : Nat
  /-- Commands issued so far (rule R151). -/
  issued : Nat
  status : OpStatus
deriving DecidableEq, Repr

/-- The loop bound: N for encode, M = floor(L / 2) for decode, where a trailing lone character is ignored (rule R144). -/
def opUnits (k : OpKind) (len : Nat) : Nat :=
  match k with
  | .encode => len / Config.bytesPerCmd
  | .decode => len / Config.charsPerByte

/-- The capacity needed (rule R146), which is also the count returned on success (rule R148). -/
def opNeeded (k : OpKind) (len : Nat) : Nat :=
  match k with
  | .encode => Config.charsPerByte * len
  | .decode => len / Config.charsPerByte

/-- End the loop when its index has reached the bound. -/
def opSettle (op : HostOp) : HostOp :=
  if op.idx < opUnits op.kind (bufLen op.src) then op
  else { op with status := .ok (opNeeded op.kind (bufLen op.src)) }

/-- The start of a call: overlap is refused (rule R54), then the capacity is checked before any command or write
(rules R146 and R164). -/
def opStart (k : OpKind) (src dst : Buffer) : Host.Outcome HostOp Fault Refusal :=
  if bufOverlap src dst then .refused .overlappingBuffers
  else if bufLen dst < opNeeded k (bufLen src) then
    .fault (.bufferTooSmall (opNeeded k (bufLen src)) (bufLen dst))
  else .next (opSettle ⟨k, src, dst, 0, 0, .running⟩)

/-- How a call leaves its operation beside others (rules R140, R150 and R163): a fault is the result of that operation,
which ends with it before any command or write; a call with no meaning is refused. -/
def opCalled (k : OpKind) (src dst : Buffer) : Host.Outcome HostOp Fault Refusal :=
  match opStart k src dst with
  | .next op   => .next op
  | .fault f   => .next ⟨k, src, dst, 0, 0, .faulted f⟩
  | .refused r => .refused r

/-- What a call leaves true of its operation: while it runs, an element is left and dst has room (rule R146). -/
def opFits (op : HostOp) : Prop :=
  op.status = .running →
    op.idx < opUnits op.kind (bufLen op.src) ∧ opNeeded op.kind (bufLen op.src) ≤ bufLen op.dst

/-- The command for the element at the loop index: ENC b, or DEC c0, c1. -/
def opCommand (op : HostOp) : Host.Outcome Word32 Fault Refusal :=
  match op.kind with
  | .encode => andThen (bufRead op.src op.idx) fun b => .next (encode (.enc b))
  | .decode =>
    andThen (bufRead op.src (2 * op.idx)) fun c0 =>
    andThen (bufRead op.src (2 * op.idx + 1)) fun c1 => .next (encode (.dec c0 c1))

/-- Encode's use of a response: two single-byte writes, lane 0 first (rules R44 and R142). -/
def takeEncode (op : HostOp) (r : Word32) : Host.Outcome HostOp Fault Refusal :=
  andThen (bufWrite op.dst (2 * op.idx) (lane0 (rspData r))) fun d0 =>
  andThen (bufWrite d0 (2 * op.idx + 1) (lane1 (rspData r))) fun d1 =>
  .next (opSettle { op with dst := d1, idx := op.idx + 1, issued := op.issued + 1 })

/-- Decode's use of a response: stop at INVALID_CHAR with the first invalid position of the pair, else write one byte
(rules R143 and R145). -/
def takeDecode (op : HostOp) (r : Word32) : Host.Outcome HostOp Fault Refusal :=
  if rspStatus r = Status.invalidChar.code then
    .next { op with
      issued := op.issued + 1
      status := .invalidCharacter op.idx (if (rspErrMask r).getLsbD 0 then 2 * op.idx else 2 * op.idx + 1) }
  else
    andThen (bufWrite op.dst op.idx (lane0 (rspData r))) fun d =>
    .next (opSettle { op with dst := d, idx := op.idx + 1, issued := op.issued + 1 })

/-- What the operation does with a captured response. -/
def opTake (op : HostOp) (r : Word32) : Host.Outcome HostOp Fault Refusal :=
  match op.kind with
  | .encode => takeEncode op r
  | .decode => takeDecode op r

/-- Capture the response of the edge just past; not capturing it is refused (rule R147 point 3). -/
def opCapture (op : HostOp) (s : State) : Host.Outcome HostOp Fault Refusal :=
  match capture s with
  | some r => opTake op r
  | none   => .refused .responseNotCaptured

/-- One edge granted to an operation: it presents its command, the block steps, and it captures the response. An
operation that has ended presents nothing, so the edge is idle (log entry 9). -/
def opEdge (op : HostOp) (s : State) : Host.Outcome (HostOp × State) Fault Refusal :=
  if op.status = .running then
    andThen (opCommand op) fun w =>
    andThen (step (present (commandIn w) s)) fun t =>
    andThen (opCapture op t) fun op' => .next (op', t)
  else andThen (step (present idleIn s)) fun t => .next (op, t)

/-- Run an operation alone for at most `fuel` commands, one an edge, until it ends. -/
def opRun : Nat → HostOp → State → Host.Outcome (HostOp × State) Fault Refusal
  | 0, op, s        => .next (op, s)
  | fuel + 1, op, s =>
    if op.status = .running then andThen (opEdge op s) fun p => opRun fuel p.1 p.2
    else .next (op, s)

/-- A whole call, run alone: at most one command for each element of the source. -/
def opCall (k : OpKind) (src dst : Buffer) (s : State) : Host.Outcome (HostOp × State) Fault Refusal :=
  andThen (opStart k src dst) fun op => opRun (opUnits k (bufLen src)) op s

/-- HexEncodeBuf (rule R142): the ended operation (dst, n and status in it) and the block after it. -/
def hexEncodeBuf (dst src : Buffer) (s : State) : Host.Outcome (HostOp × State) Fault Refusal :=
  opCall .encode src dst s

/-- HexDecodeBuf (rule R143). -/
def hexDecodeBuf (dst src : Buffer) (s : State) : Host.Outcome (HostOp × State) Fault Refusal :=
  opCall .decode src dst s

/-- Construct (rule R141): the host issues SETCASE. -/
def construct (m : CaseMode) (s : State) : Host.Outcome State Fault Refusal :=
  step (present (commandIn (encode (.setcase m))) s)

/-! ### Several host-level operations beside one block (44_buffer_ops.md rule R150) -/

/-- The block and the operations of several host agents, each with buffers of its own (held by value, log entry 6). -/
structure System where
  block : State
  ops   : List HostOp
deriving DecidableEq, Repr

/-- What the arbiter outside the block lets happen next. -/
inductive SysEvent where
  /-- An edge with these inputs, from the reset source or from a host agent outside the list. -/
  | edge (p : PortIn)
  /-- An edge granted to operation `k`, which captures its response. -/
  | grant (k : Nat)
  /-- An edge granted to operation `k`, which does not capture its response; that is refused (log entries 8 and 19). -/
  | missed (k : Nat)
  /-- A new call, between two edges. If it faults, its operation ends with that; if it is refused, so is the run (log entry
  19). -/
  | call (kind : OpKind) (src dst : Buffer)
deriving DecidableEq, Repr

/-- Whether a call's buffers clash with a running operation's: either writes what the other reads or writes. -/
def buffersClash (src dst : Buffer) (o : HostOp) : Bool :=
  decide (o.status = .running) && (bufOverlap o.dst src || bufOverlap o.dst dst || bufOverlap o.src dst)

/-- Rule R150's distinct buffers: of any two running operations, neither writes what the other reads or writes. -/
def opsDistinct (ops : List HostOp) : Prop :=
  ops.Pairwise fun o₁ o₂ => o₂.status = .running → buffersClash o₂.src o₂.dst o₁ = false

/-- One event of the system. A call makes its own checks first, overlap and then capacity (rules R142, R143 and R164
point 3), and a call whose dst is too small ends its own operation alone (rules R140, R150 and R163). DESIGN CHOICE (log
entry 9): only a call that passes them and has commands to issue is asked whether its buffers clash with a running
operation's, so BufferTooSmall beats sharedBuffers; and a grant to an operation that is absent or has ended is an idle
edge. DESIGN CHOICE (log entry 19): rules R54 and R147 refuse the one call that has no meaning and do not say what the
other agents' operations do then; here its refusal ends the whole run, the block and those operations included. -/
def sysStep (e : SysEvent) (y : System) : Host.Outcome System Fault Refusal :=
  match e with
  | .edge p  => andThen (step (present p y.block)) fun t => .next { y with block := t }
  | .grant k =>
    match y.ops[k]? with
    | some op => andThen (opEdge op y.block) fun p => .next ⟨p.2, y.ops.set k p.1⟩
    | none    => andThen (step (present idleIn y.block)) fun t => .next { y with block := t }
  | .missed k =>
    match y.ops[k]? with
    | some op =>
      if op.status = .running then .refused .responseNotCaptured
      else andThen (step (present idleIn y.block)) fun t => .next { y with block := t }
    | none    => andThen (step (present idleIn y.block)) fun t => .next { y with block := t }
  | .call kind src dst =>
    andThen (opCalled kind src dst) fun op =>
      if op.status = .running ∧ y.ops.any (buffersClash src dst) then .refused .sharedBuffers
      else .next { y with ops := y.ops ++ [op] }

/-- A run of the system over a list of events. -/
def sysRun : List SysEvent → System → Host.Outcome System Fault Refusal
  | [], y      => .next y
  | e :: es, y => andThen (sysStep e y) (sysRun es)

/-- An event that leaves CASE alone (20_memory.md rule R52): no reset, and no accepted SETCASE from outside the list. -/
def keepsCase (e : SysEvent) : Bool :=
  match e with
  | .edge p =>
    !p.rst && !(p.cmdValid && match decode p.cmd with
      | .ok (.setcase _) => true
      | _                => false)
  | .grant _    => true
  | .missed _   => true
  | .call _ _ _ => true

/-- How many calls a list of events holds. -/
def callsIn (es : List SysEvent) : Nat :=
  es.countP fun e => match e with
    | .edge _     => false
    | .grant _    => false
    | .missed _   => false
    | .call _ _ _ => true

/-- How many edges a list of events grants to operation `k`. -/
def grantsTo (k : Nat) (es : List SysEvent) : Nat := es.countP fun e => e == .grant k

/-! ### The operations as functions on texts -/

/-- The text of a byte sequence (20_memory.md rule R42). -/
def encodeText (m : CaseMode) (bs : List Byte) : List Byte :=
  bs.flatMap fun b => [lutEnc (highNibble b) m, lutEnc (lowNibble b) m]

/-- What decoding a text gives: the bytes of the pairs before the first failing one, and the position of the first
invalid character of that pair, if there is one. -/
structure DecodedText where
  bytes   : List Byte
  invalid : Option Nat
deriving DecidableEq, Repr

/-- Decode a text whose first character stands at index `pos` (20_memory.md rule R43, 44_buffer_ops.md rules R143 to
R145): pairs in order, a trailing lone character ignored. -/
def decodeText (pos : Nat) : List Byte → DecodedText
  | c0 :: c1 :: rest =>
    if (lutDec c0).valid then
      if (lutDec c1).valid then
        let d := decodeText (pos + 2) rest
        { d with bytes := joinNibbles (lutDec c0).nib (lutDec c1).nib :: d.bytes }
      else ⟨[], some (pos + 1)⟩
    else ⟨[], some pos⟩
  | [_] => ⟨[], none⟩
  | []  => ⟨[], none⟩

end Sys2Proof.Machine
end

