-- ==== Sys2Proof/Machine/Properties.lean ====
section
/-!
DEFINITION. The testable properties of the buffer operations (44_buffer_ops.md rule R149), about what a whole call gives
its caller: the bytes it wrote, the count n and the status.
-/
namespace Sys2Proof.Machine

/-- What an ended call gives its caller (rules R148 and R149): the bytes it wrote, n, and the position of the first
invalid character where the status is InvalidCharacter (none where it is OK). -/
structure CallResult where
  written : List Byte
  count   : Nat
  invalid : Option Nat
deriving DecidableEq, Repr

/-- The result of an operation that has ended: n of the bytes of dst are what it wrote (rules R142, R143 and R148).
One that ended by a fault has no count. -/
def opResult (op : HostOp) : Option CallResult :=
  match op.status with
  | .running                => none
  | .ok n                   => some ⟨op.dst.bytes.take n, n, none⟩
  | .invalidCharacter n pos => some ⟨op.dst.bytes.take n, n, some pos⟩
  | .faulted _              => none

/-- The result of a whole call run alone; a fault or a refusal has none (60_exceptions.md rule R163). -/
def callResult (k : OpKind) (src dst : Buffer) (s : State) : Option CallResult :=
  match opCall k src dst s with
  | .next p    => opResult p.1
  | .fault _   => none
  | .refused _ => none

/-- The first `n` bytes of a buffer, as an argument of another call. -/
def bufTake (n : Nat) (b : Buffer) : Buffer := { b with bytes := b.bytes.take n }

/-- A buffer with each byte mapped, as rule R149 point 2 folds the case of a text. -/
def bufMap (f : Byte → Byte) (b : Buffer) : Buffer := { b with bytes := b.bytes.map f }

/-- The characters of a text's complete pairs: all but a trailing lone one (rule R144). -/
def completePairs (cs : List Byte) : List Byte :=
  cs.take (Config.charsPerByte * (cs.length / Config.charsPerByte))

/-- Rule R149 point 1 for one byte sequence: encoded into `mid` and decoded from there into `dst`, it comes back with
OK. -/
def RoundTrips (src mid dst : Buffer) (s : State) : Prop :=
  ∃ op t, hexEncodeBuf mid src s = .next (op, t) ∧ op.status = .ok (2 * bufLen src) ∧
    callResult .decode (bufTake (2 * bufLen src) op.dst) dst t = some ⟨src.bytes, bufLen src, none⟩

/-- Rule R149 point 2 for one text: decoding it, and decoding it folded to upper and to lower case, give one result. -/
def DecodesCaseInvariantly (src dst : Buffer) (s : State) : Prop :=
  ∃ r, callResult .decode src dst s = some r ∧
    callResult .decode (bufMap toUpperASCII src) dst s = some r ∧
    callResult .decode (bufMap toLowerASCII src) dst s = some r

/-- Rule R149 point 3 for one byte sequence. -/
def EncodesToTwiceTheLength (src dst : Buffer) (s : State) : Prop :=
  ∃ r, callResult .encode src dst s = some r ∧ r.written.length = 2 * bufLen src ∧ r.count = 2 * bufLen src

/-- Rule R149 point 3 for one text, which says nothing of a text with an invalid character in a complete pair. -/
def DecodesToHalfTheLength (src dst : Buffer) (s : State) : Prop :=
  (∀ c ∈ completePairs src.bytes, c ∈ acceptedAlphabet) →
    ∃ r, callResult .decode src dst s = some r ∧ r.written.length = bufLen src / 2 ∧ r.count = bufLen src / 2

/-- Rule R149 point 4 for one byte sequence: every character written is in the alphabet CASE selects. -/
def EncodesInAlphabet (src dst : Buffer) (s : State) : Prop :=
  ∃ r, callResult .encode src dst s = some r ∧ ∀ c ∈ r.written, c ∈ alphabet s.caseMode

end Sys2Proof.Machine
end

