-- ==== Sys2Proof/Safety.lean ====
section
/-!
DEFINITION. What a safe run is, in the terms the statements use. The block never stops (43_control.md rule R126), so a
safe run is one in which RSP always holds a word that 30_encoding.md rule R61 allows.
-/
namespace Sys2Proof.Machine

/-- Rule R61, field by field: STATUS is 0, 1 or 2, bits [23:18] are 0, ERRMASK is 0 unless STATUS = INVALID_CHAR, DATA is
0 unless STATUS = OK. Beyond the rule's table: an INVALID_CHAR names at least one operand and answers DEC or LUTDEC
alone, and only LUTDEC's first operand (60_exceptions.md rule R161); an OK answers a defined OP (rule R63). -/
def wellShaped (r : Word32) : Bool :=
  rspZero r == 0 &&
  ((rspStatus r == 0 && rspErrMask r == 0 && decide (rspOp r ≤ 6)) ||
   (rspStatus r == 1 && rspData r == 0 &&
     ((rspOp r == 2 && !(rspErrMask r == 0)) || (rspOp r == 6 && rspErrMask r == 1))) ||
   (rspStatus r == 2 && rspErrMask r == 0 && rspData r == 0))

/-- The invariant of the block's registers: RSP is well shaped. -/
def State.safe (s : State) : Prop := wellShaped s.rsp = true

end Sys2Proof.Machine
end

