-- ==== Sys2Proof/Certificates/Slice0/Obligations.lean ====
section
/-!
DEFINITION. The statements about the machine. Each docstring names the rules of spec/ it formalises; what rests on a
choice of the model names its log entry.
-/
open Sys2Proof Sys2Proof.Machine

/-! ### Reset, edges and the step -/

/-- 70_reset_and_hazards.md rule R180 and 10_state.md rule R31: a reset edge gives CASE = Lower, RSP = 0 and RSP_VALID = 0
whatever the state was and whatever stood on the command port (the command is dropped), `cmd_ready` is 1, and the tables
answer after it as they always do. -/
def Obligations.ResetEdgeGivesResetValues : Prop :=
  ∀ (s : State) (v : Bool) (w : Word32), ∃ t,
    step (present (resetIn v w) s) = .next t ∧
    t.caseMode = .lower ∧ t.rsp = 0x00000000 ∧ t.rspValid = false ∧ t.inputs = s.inputs ∧
    outputs t = ⟨true, false, 0x00000000⟩ ∧
    (∀ (n : Nibble) (m : CaseMode), ∃ u, exec (.lutenc n) { t with caseMode := m } = .next u ∧
      (forwardTable m)[n.toNat]?.map zext16 = some (rspData u.rsp)) ∧
    (∀ ch : Byte, ∃ u u', exec (.lutdec ch) t = .next u ∧ exec (.lutdec ch) s = .next u' ∧ u.rsp = u'.rsp)

/-- 70_reset_and_hazards.md rule R180: holding `rst` for several edges, with any words on the command port, has the same
effect as one edge. -/
def Obligations.HoldingResetIsOneReset : Prop :=
  ∀ (s : State) (rest : List PortIn) (p : Bool × Word32) (ps : List (Bool × Word32)),
    edges (ps.length + 1)
        { s with inputs := ((p :: ps).map fun q => resetIn q.1 q.2) ++ rest } =
      .next ⟨.lower, 0x00000000, false, rest⟩ ∧
    step { s with inputs := resetIn p.1 p.2 :: rest } = .next ⟨.lower, 0x00000000, false, rest⟩

/-- The model's choice (log entry 1) beside 10_state.md rules R26 and R31: a run starts in the state of rule R31 with no
inputs driven yet, and an edge the input list does not cover is an idle edge of 43_control.md rule R125. -/
def Obligations.RunStartsInResetStateAndIdles : Prop :=
  Host.Core.reset core = (⟨.lower, 0x00000000, false, []⟩ : State) ∧
  ∀ s : State, s.inputs = [] → step s = .next { s with rspValid := false }

/-- 43_control.md rule R125: with the inputs of an edge at the ports, the block takes exactly one of the three steps,
reset first, with Exec as rule R124 gives it; and between edges the outputs are RSP, RSP_VALID and a constant 1. -/
def Obligations.EdgeTakesOneOfThreeSteps : Prop :=
  ∀ (s : State) (rest : List PortIn) (rst cmdValid : Bool) (cmd : Word32),
    s.inputs = ⟨rst, cmdValid, cmd⟩ :: rest →
    step s =
      (if rst = true then .next ⟨.lower, 0x00000000, false, rest⟩
       else if cmdValid = true then
         .next ⟨(transact s.caseMode cmd).1, (transact s.caseMode cmd).2, true, rest⟩
       else .next ⟨s.caseMode, s.rsp, false, rest⟩) ∧
    outputs s = ⟨true, s.rspValid, s.rsp⟩

/-- Rules R124 and R125: when a command is presented at the next edge, without reset, and its word decodes to `i`, the
step is `exec i` on the state with that edge's inputs taken off (the list of inputs is the model's, log entry 1). -/
def Obligations.StepRunsTheDecodedCommand : Prop :=
  ∀ (s : State) (w : Word32) (rest : List PortIn) (i : Instr),
    s.inputs = ⟨false, true, w⟩ :: rest → decode w = .ok i →
    step s = exec i { s with inputs := rest }

/-- 43_control.md rule R126 point 1: every step is total and no run of any length stops; each edge takes one entry of the
inputs (the model's list, log entry 1). -/
def Obligations.BlockNeverStops : Prop :=
  ∀ (k : Nat) (s : State), ∃ t, edges k s = .next t ∧ Host.Core.run core k s = .next t ∧ t.inputs = s.inputs.drop k

/-- 43_control.md rule R126 points 2 and 3, 20_memory.md rule R49: over any edges without reset, the responses a host
captures are the fold of Exec over the accepted commands from the CASE at the start, in order, and the CASE at the end is
the fold's. Idle edges between the commands change nothing of this. -/
def Obligations.ResponsesAreTheFoldOfExec : Prop :=
  ∀ (s : State) (ps rest : List PortIn), (∀ p ∈ ps, p.rst = false) →
    responses ps.length { s with inputs := ps ++ rest } = (transactAll s.caseMode (acceptedCommands ps)).2 ∧
    ∃ t, edges ps.length { s with inputs := ps ++ rest } = .next t ∧
      t.caseMode = (transactAll s.caseMode (acceptedCommands ps)).1 ∧ t.inputs = rest

/-- 20_memory.md rule R51: in a stream with no SETCASE, every command gets the response it would get alone under the
CASE at the start, whatever stands around it. -/
def Obligations.CommandsOtherThanSetcaseDoNotInterfere : Prop :=
  ∀ (c : CaseMode) (ws : List Word32), (∀ w ∈ ws, ∀ m, decode w ≠ .ok (.setcase m)) →
    transactAll c ws = (c, ws.map fun w => (transact c w).2)

/-- 20_memory.md rule R46: every command is idempotent, illegal words included. -/
def Obligations.CommandsAreIdempotent : Prop :=
  ∀ (s : State) (w : Word32), ∃ t, accept w s = .next t ∧ accept w t = .next t

/-! ### State: CASE, RSP, RSP_VALID -/

/-- The frame of every command (10_state.md rules R22, R23 and R25, 20_memory.md rule R46): `exec` answers a next state
in which RSP holds a response that echoes the command's OP, RSP_VALID is 1, CASE is the operand for SETCASE and unchanged
for every other command, and the inputs still to come are unchanged. The block has no other state and no memory. -/
def Obligations.ExecAnswersAndFrame : Prop :=
  ∀ (i : Instr) (s : State), ∃ r,
    exec i s = .next
      { s with
        caseMode := match i with
          | .nop => s.caseMode | .enc _ => s.caseMode | .dec _ _ => s.caseMode | .setcase m => m
          | .getcase => s.caseMode | .lutenc _ => s.caseMode | .lutdec _ => s.caseMode
        rsp := r
        rspValid := true } ∧
    rspOp r = opcode i

/-- 10_state.md rule R22: CASE is written only by an accepted SETCASE and by reset, and read only by ENC, LUTENC and
GETCASE: NOP, DEC, SETCASE, LUTDEC and the illegal words answer the same under both values; an ILLEGAL_CMD response never
changes it; both values are legal. -/
def Obligations.AccessToCase : Prop :=
  (∀ s : State, ∃ t, step s = .next t ∧
    (t.caseMode = s.caseMode ∨
     ((sample s).rst = true ∧ t.caseMode = .lower) ∨
     ∃ m, (sample s).rst = false ∧ (sample s).cmdValid = true ∧ decode (sample s).cmd = .ok (.setcase m) ∧
       t.caseMode = m)) ∧
  (∀ (s : State) (c : CaseMode) (c0 c1 ch : Byte),
    (∃ t u, exec (.dec c0 c1) s = .next t ∧ exec (.dec c0 c1) { s with caseMode := c } = .next u ∧ t.rsp = u.rsp) ∧
    (∃ t u, exec (.lutdec ch) s = .next t ∧ exec (.lutdec ch) { s with caseMode := c } = .next u ∧ t.rsp = u.rsp)) ∧
  (∀ (s : State) (c : CaseMode),
    (∃ t u, exec .nop s = .next t ∧ exec .nop { s with caseMode := c } = .next u ∧ t.rsp = u.rsp) ∧
    (∀ m, ∃ t, exec (.setcase m) s = .next t ∧ exec (.setcase m) { s with caseMode := c } = .next t) ∧
    (∀ w, legal w = false → ∃ t u, accept w s = .next t ∧ accept w { s with caseMode := c } = .next u ∧
      t.rsp = u.rsp)) ∧
  (∀ s : State,
    (∃ b t u, exec (.enc b) { s with caseMode := .lower } = .next t ∧
      exec (.enc b) { s with caseMode := .upper } = .next u ∧ t.rsp ≠ u.rsp) ∧
    (∃ n t u, exec (.lutenc n) { s with caseMode := .lower } = .next t ∧
      exec (.lutenc n) { s with caseMode := .upper } = .next u ∧ t.rsp ≠ u.rsp) ∧
    (∃ t u, exec .getcase { s with caseMode := .lower } = .next t ∧
      exec .getcase { s with caseMode := .upper } = .next u ∧ t.rsp ≠ u.rsp)) ∧
  (∀ (s : State) (w : Word32), legal w = false → ∃ t, accept w s = .next t ∧ t.caseMode = s.caseMode) ∧
  (∀ (s : State) (m : CaseMode), ∃ t, exec (.setcase m) s = .next t ∧ t.caseMode = m)

/-- 10_state.md rule R23: at an accepting edge RSP takes the response word and RSP_VALID takes 1, at an idle edge RSP
holds and RSP_VALID takes 0, reset sets both to 0, the output ports show both, and no command reads RSP or RSP_VALID. -/
def Obligations.ResponseRegister : Prop :=
  ∀ (s : State) (w : Word32),
    (∃ t, step (present (commandIn w) s) = .next t ∧ t.rsp = (transact s.caseMode w).2 ∧ t.rspValid = true) ∧
    (∃ t, step (present idleIn s) = .next t ∧ t.rsp = s.rsp ∧ t.rspValid = false) ∧
    (∀ v, ∃ t, step (present (resetIn v w) s) = .next t ∧ t.rsp = 0 ∧ t.rspValid = false) ∧
    (outputs s).rsp = s.rsp ∧ (outputs s).rspValid = s.rspValid ∧
    (∀ (r : Word32) (v : Bool),
      step (present (commandIn w) { s with rsp := r, rspValid := v }) = step (present (commandIn w) s))

/-- 30_encoding.md rule R61: every accepted command produces one response, OPECHO is cmd[31:28], STATUS is 0, 1 or 2,
bits [23:18] are 0, bit 16 says that operand A was an invalid character and bit 17 that operand B was, ERRMASK is 0
unless STATUS = INVALID_CHAR, DATA is 0 whenever STATUS is not OK; and the word is built from its fields by concatenation
and by shifts alike. -/
def Obligations.ResponseWordFormat : Prop :=
  (∀ (s : State) (w : Word32), ∃ t, accept w s = .next t ∧ t.rspValid = true ∧
    rspOp t.rsp = cmdOp w ∧
    (rspStatus t.rsp = 0 ∨ rspStatus t.rsp = 1 ∨ rspStatus t.rsp = 2) ∧
    rspZero t.rsp = 0 ∧
    (t.rsp.getLsbD 16 = true ↔ rspStatus t.rsp = 1 ∧ cmdA w ∉ acceptedAlphabet) ∧
    (t.rsp.getLsbD 17 = true ↔ rspStatus t.rsp = 1 ∧ cmdOp w = 0x2 ∧ cmdB w ∉ acceptedAlphabet) ∧
    (rspStatus t.rsp ≠ 1 → rspErrMask t.rsp = 0) ∧
    (rspStatus t.rsp ≠ 0 → rspData t.rsp = 0)) ∧
  (∀ (op : BitVec 4) (st : Status) (em : BitVec 2) (d : Data),
    (rspWord op st em d).toNat = op.toNat * 2 ^ 28 + st.code.toNat * 2 ^ 24 + em.toNat * 2 ^ 16 + d.toNat) ∧
  Status.ok.code = 0 ∧ Status.invalidChar.code = 1 ∧ Status.illegalCmd.code = 2

/-- 30_encoding.md rule R70: a host reads the fields back from the word they were built into. -/
def Obligations.ResponseFieldsReadBack : Prop :=
  (∀ r : Word32,
    r.toNat = (rspOp r).toNat * 2 ^ 28 + (rspStatus r).toNat * 2 ^ 24 + (rspZero r).toNat * 2 ^ 18 +
      (rspErrMask r).toNat * 2 ^ 16 + (rspData r).toNat ∧
    rspData r = lanes (lane1 (rspData r)) (lane0 (rspData r))) ∧
  (∀ (s : State) (b : Byte), ∃ t, exec (.enc b) s = .next t ∧
    lane0 (rspData t.rsp) = lutEnc (highNibble b) s.caseMode ∧
    lane1 (rspData t.rsp) = lutEnc (lowNibble b) s.caseMode) ∧
  (∀ (s : State) (n0 n1 : Nibble) (c0 c1 : Byte), lutDec c0 = ⟨true, n0⟩ → lutDec c1 = ⟨true, n1⟩ →
    ∃ t, exec (.dec c0 c1) s = .next t ∧ lane0 (rspData t.rsp) = joinNibbles n0 n1)

/-- The invariant every step keeps (rules R61, R63 and R161; `wellShaped` says more than R61's table, by the model's
inference of log entry 16): if RSP holds a word the block may answer,
it does so after the step, and the step answers. -/
def Obligations.StepKeepsRspWellShaped : Prop :=
  ∀ s : State, s.safe → ∃ t, step s = .next t ∧ t.safe

/-- The invariant `wellShaped` of log entry 16 holds at reset (rules R31 and R61). -/
def Obligations.ResetIsWellShaped : Prop := State.reset.safe

/-! ### Encoding -/

/-- A few command words written out from the match column of rule R64 and the operands of rule R62, and a word with an
undefined OP, which decodes to no command. -/
def Obligations.CommandWordsDecode : Prop :=
  decode 0x00000000 = .ok .nop ∧
  decode 0x100000A5 = .ok (.enc 0xA5) ∧
  decode 0x20006130 = .ok (.dec 0x30 0x61) ∧
  decode 0x30000001 = .ok (.setcase .upper) ∧
  decode 0x40000000 = .ok .getcase ∧
  decode 0x5000000B = .ok (.lutenc 0xB) ∧
  decode 0x60000046 = .ok (.lutdec 0x46) ∧
  (decode 0x70000000).toOption = none

/-- Rules R60 to R67: decoding an encoded command gives it back with every operand, and every word that decodes is the
encoding of what it decodes to, so each legal word has one meaning. -/
def Obligations.DecodeAndEncodeAgree : Prop :=
  (∀ i : Instr, decode (encode i) = .ok i) ∧ ∀ (w : Word32) (i : Instr), decode w = .ok i → encode i = w

/-- 30_encoding.md rules R60, R62, R63 and R68: the word of each command as a number. -/
def Obligations.EncodedWordsAsNumbers : Prop :=
  (encode .nop).toNat = 0x00000000 ∧
  (∀ b, (encode (.enc b)).toNat = 0x10000000 + b.toNat) ∧
  (∀ c0 c1, (encode (.dec c0 c1)).toNat = 0x20000000 + c1.toNat * 2 ^ 8 + c0.toNat) ∧
  (∀ m, (encode (.setcase m)).toNat = 0x30000000 + m.bit.toNat) ∧
  (encode .getcase).toNat = 0x40000000 ∧
  (∀ n, (encode (.lutenc n)).toNat = 0x50000000 + n.toNat) ∧
  (∀ ch, (encode (.lutdec ch)).toNat = 0x60000000 + ch.toNat)

/-- 30_encoding.md rule R67, in numbers: OP is the word over 2^28, cmd[27:n] = 0 is a division, an operand is a
remainder. -/
def Obligations.DecodeFollowsTheProcedure : Prop :=
  ∀ w : Word32, (decode w).toOption =
    (let op := w.toNat / 2 ^ 28
     let low := w.toNat % 2 ^ 28
     if op = 0 then (if low = 0 then some .nop else none)
     else if op = 1 then (if low / 2 ^ 8 = 0 then some (.enc (BitVec.ofNat 8 w.toNat)) else none)
     else if op = 2 then
       (if low / 2 ^ 16 = 0 then some (.dec (BitVec.ofNat 8 w.toNat) (BitVec.ofNat 8 (w.toNat / 2 ^ 8))) else none)
     else if op = 3 then
       (if low / 2 ^ 1 = 0 then some (.setcase (if w.toNat % 2 = 0 then .lower else .upper)) else none)
     else if op = 4 then (if low = 0 then some .getcase else none)
     else if op = 5 then (if low / 2 ^ 4 = 0 then some (.lutenc (BitVec.ofNat 4 w.toNat)) else none)
     else if op = 6 then (if low / 2 ^ 8 = 0 then some (.lutdec (BitVec.ofNat 8 w.toNat)) else none)
     else none)

/-- 30_encoding.md rule R64: a word is legal iff a row of the match and mask table accepts it iff it decodes, at most
one row accepts it, and that row is the decoded command's. -/
def Obligations.LegalIffDecodes : Prop :=
  ∀ w : Word32,
    (legal w = true ↔ ∃ r ∈ encodingRows, w &&& r.mask = r.pattern) ∧
    (legal w = true ↔ ∃ i, decode w = .ok i) ∧
    (∀ r₁ ∈ encodingRows, ∀ r₂ ∈ encodingRows, r₁.accepts w = true → r₂.accepts w = true → r₁ = r₂) ∧
    (∀ i, decode w = .ok i → encodingRow i ∈ encodingRows ∧ (encodingRow i).accepts w = true)

/-- 30_encoding.md rule R65: of the 2^32 words, 66 068 are legal. -/
def Obligations.LegalWordsAre66068 : Prop :=
  ∃ l : List Word32, l.Nodup ∧ l.length = 66068 ∧ ∀ w, w ∈ l ↔ legal w = true

/-- 30_encoding.md rules R65 and R67, 43_control.md rule R123: a word with OP 0x7 to 0xF, or with OP 0x0 to 0x6 and a
must-be-zero bit set, decodes to no command. That the decoder names which of the two it is, and the names, are the model's
choice (log entry 4). -/
def Obligations.IllegalWordsAreNamed : Prop :=
  ∀ w : Word32, legal w = false →
    (7 ≤ (cmdOp w).toNat ∧ decode w = .error (.undefinedOpcode (cmdOp w))) ∨
    ((cmdOp w).toNat < 7 ∧ ∃ r ∈ encodingRows, decode w = .error (.mustBeZero r.mnemonic) ∧
      cmdOp r.pattern = cmdOp w ∧ w &&& r.mask ≠ r.pattern)

/-! ### hex_nibble_lut -/

/-- 40_lut.md rules R80 and R81: the formula is the table, all 32 entries. -/
def Obligations.ForwardLookupIsTheTable : Prop :=
  ((List.range 16).map fun n => lutEnc (BitVec.ofNat 4 n) .lower) =
    [0x30, 0x31, 0x32, 0x33, 0x34, 0x35, 0x36, 0x37, 0x38, 0x39, 0x61, 0x62, 0x63, 0x64, 0x65, 0x66] ∧
  ((List.range 16).map fun n => lutEnc (BitVec.ofNat 4 n) .upper) =
    [0x30, 0x31, 0x32, 0x33, 0x34, 0x35, 0x36, 0x37, 0x38, 0x39, 0x41, 0x42, 0x43, 0x44, 0x45, 0x46] ∧
  ∀ (n : Nibble) (m : CaseMode), (forwardTable m)[n.toNat]? = some (lutEnc n m)

/-- 40_lut.md rule R83: every octet lies in exactly one row of the range table, and the lookup answers as that row says;
22 octets are valid and 234 are not. -/
def Obligations.ReverseLookupIsTheRangeTable : Prop :=
  (∀ ch : Byte,
    ((reverseRanges.filter fun r => decide (r.lo ≤ ch.toNat ∧ ch.toNat ≤ r.hi)).map fun r => r.answer ch) =
      [lutDec ch]) ∧
  ((List.range 256).filter fun n => (lutDec (BitVec.ofNat 8 n)).valid).length = 22 ∧
  ((List.range 256).filter fun n => !(lutDec (BitVec.ofNat 8 n)).valid).length = 234

/-- 00_scope.md rule R12: the accepted alphabet has 22 distinct characters, the union of the two alphabets of 16, and a
character is valid exactly when it is in it. -/
def Obligations.ValidMeansAcceptedAlphabet : Prop :=
  acceptedAlphabet.length = 22 ∧ acceptedAlphabet.Nodup ∧ lowerAlphabet.length = 16 ∧ upperAlphabet.length = 16 ∧
  ∀ ch : Byte,
    (ch ∈ acceptedAlphabet ↔ ch ∈ lowerAlphabet ∨ ch ∈ upperAlphabet) ∧
    ((lutDec ch).valid = true ↔ ch ∈ acceptedAlphabet)

/-- 40_lut.md rules R82 and R85: the lookup laws (totality is the type's): alphabet, injectivity, round trip, only two
spellings, and independence of ASCII case folding. -/
def Obligations.LookupLaws : Prop :=
  (∀ (n : Nibble) (m : CaseMode), lutEnc n m ∈ alphabet m) ∧
  (∀ (n k : Nibble) (m : CaseMode), lutEnc n m = lutEnc k m → n = k) ∧
  (∀ (n : Nibble) (m : CaseMode), lutDec (lutEnc n m) = ⟨true, n⟩) ∧
  (∀ ch : Byte, (lutDec ch).valid = true →
    ch = lutEnc (lutDec ch).nib .lower ∨ ch = lutEnc (lutDec ch).nib .upper) ∧
  (∀ ch : Byte, lutDec (toLowerASCII ch) = lutDec ch ∧ lutDec (toUpperASCII ch) = lutDec ch)

/-- 10_state.md rule R28: each output of `hex_nibble_lut` is a function of the inputs of its own half alone, and is the
lookup of 40_lut.md. -/
def Obligations.LutHalvesAreIndependent : Prop :=
  ∀ i j : LutIn,
    (i.encNib = j.encNib → i.encUpper = j.encUpper → (hexNibbleLut i).encChar = (hexNibbleLut j).encChar) ∧
    (i.decChar = j.decChar →
      (hexNibbleLut i).decValid = (hexNibbleLut j).decValid ∧ (hexNibbleLut i).decNib = (hexNibbleLut j).decNib) ∧
    (i.encUpper = 0 → (hexNibbleLut i).encChar = lutEnc i.encNib .lower) ∧
    (i.encUpper = 1 → (hexNibbleLut i).encChar = lutEnc i.encNib .upper) ∧
    (⟨(hexNibbleLut i).decValid, (hexNibbleLut i).decNib⟩ : LutDecOut) = lutDec i.decChar ∧
    ((hexNibbleLut i).decValid = false → (hexNibbleLut i).decNib = 0)

/-! ### The commands, one by one -/

/-- 43_control.md rule R120: NOP answers OK with DATA 0, sets RSP_VALID, leaves CASE; 0x00000000 is its only word and
any other word with OP = 0x0 is ILLEGAL_CMD. -/
def Obligations.NopAnswers : Prop :=
  (∀ s : State, exec .nop s = .next { s with rsp := 0x00000000, rspValid := true }) ∧
  decode 0x00000000 = .ok .nop ∧
  ∀ (s : State) (w : Word32), cmdOp w = 0x0 → w ≠ 0x00000000 →
    accept w s = .next { s with rsp := 0x02000000, rspValid := true }

/-- 41_encoder.md rules R100 and R101: ENC answers the two characters, high nibble in lane 0, and leaves CASE; its words
are 0x100000bb and any other word with OP = 0x1 is ILLEGAL_CMD. -/
def Obligations.EncAnswers : Prop :=
  (∀ (b : Byte) (s : State), exec (.enc b) s = .next
    { s with
      rsp := rspWord 0x1 .ok 0b00 (lanes (lutEnc (lowNibble b) s.caseMode) (lutEnc (highNibble b) s.caseMode))
      rspValid := true }) ∧
  (∀ b : Byte, decode (0x10000000 ||| b.setWidth 32) = .ok (.enc b)) ∧
  ∀ (s : State) (w : Word32), cmdOp w = 0x1 → w &&& 0xFFFFFF00 ≠ 0x10000000 →
    accept w s = .next { s with rsp := 0x12000000, rspValid := true }

/-- 42_decoder.md rules R110 and R111: DEC answers the joined byte when both characters are valid, else INVALID_CHAR with
every invalid operand in ERRMASK, and leaves CASE; its words are 0x2000c1c0 and any other word with OP = 0x2 is
ILLEGAL_CMD. -/
def Obligations.DecAnswers : Prop :=
  (∀ (c0 c1 : Byte) (s : State), exec (.dec c0 c1) s = .next
    { s with
      rsp :=
        if (lutDec c0).valid = true ∧ (lutDec c1).valid = true then
          rspWord 0x2 .ok 0b00 (zext16 (joinNibbles (lutDec c0).nib (lutDec c1).nib))
        else if (lutDec c0).valid = true then 0x21020000
        else if (lutDec c1).valid = true then 0x21010000
        else 0x21030000
      rspValid := true }) ∧
  (∀ c0 c1 : Byte, decode (0x20000000 ||| c1.setWidth 32 <<< 8 ||| c0.setWidth 32) = .ok (.dec c0 c1)) ∧
  ∀ (s : State) (w : Word32), cmdOp w = 0x2 → w &&& 0xFFFF0000 ≠ 0x20000000 →
    accept w s = .next { s with rsp := 0x22000000, rspValid := true }

/-- 43_control.md rule R121: SETCASE writes CASE and echoes it, the very next accepted command sees it; its words are
0x30000000 and 0x30000001 and any other word with OP = 0x3 is ILLEGAL_CMD and leaves CASE. -/
def Obligations.SetcaseAnswers : Prop :=
  (∀ (m : CaseMode) (s : State), exec (.setcase m) s = .next
    { s with caseMode := m, rsp := (if m = .lower then 0x30000000 else 0x30000001), rspValid := true }) ∧
  decode 0x30000000 = .ok (.setcase .lower) ∧ decode 0x30000001 = .ok (.setcase .upper) ∧
  (∀ (m : CaseMode) (s : State) (w : Word32) (rest : List PortIn), ∃ t,
    edges 2 { s with inputs := commandIn (encode (.setcase m)) :: commandIn w :: rest } = .next t ∧
    t.rsp = (transact m w).2) ∧
  ∀ (s : State) (w : Word32), cmdOp w = 0x3 → w ≠ 0x30000000 → w ≠ 0x30000001 →
    accept w s = .next { s with rsp := 0x32000000, rspValid := true }

/-- 43_control.md rule R122: GETCASE answers CASE and leaves it; right after a reset edge it answers 0; 0x40000000 is its
only word and any other word with OP = 0x4 is ILLEGAL_CMD. -/
def Obligations.GetcaseAnswers : Prop :=
  (∀ s : State, exec .getcase s = .next
    { s with rsp := (if s.caseMode = .lower then 0x40000000 else 0x40000001), rspValid := true }) ∧
  decode 0x40000000 = .ok .getcase ∧
  (∀ (s : State) (v : Bool) (w : Word32) (rest : List PortIn), ∃ t,
    edges 2 { s with inputs := resetIn v w :: commandIn 0x40000000 :: rest } = .next t ∧
    t.rsp = 0x40000000) ∧
  ∀ (s : State) (w : Word32), cmdOp w = 0x4 → w ≠ 0x40000000 →
    accept w s = .next { s with rsp := 0x42000000, rspValid := true }

/-- 40_lut.md rule R86: LUTENC answers the character with DATA[15:8] = 0 and leaves CASE, nibbles 0 to 9 do not depend
on CASE and nibbles 0xA to 0xF do; its words are 0x5000000n and any other word with OP = 0x5 is ILLEGAL_CMD. -/
def Obligations.LutencAnswers : Prop :=
  (∀ (n : Nibble) (s : State), exec (.lutenc n) s = .next
    { s with rsp := rspWord 0x5 .ok 0b00 (zext16 (lutEnc n s.caseMode)), rspValid := true }) ∧
  (∀ (n : Nibble) (m : CaseMode), lane1 (zext16 (lutEnc n m)) = 0) ∧
  (∀ n : Nibble, lutEnc n .lower = lutEnc n .upper ↔ n ≤ 9) ∧
  (∀ n : Nibble, decode (0x50000000 ||| n.setWidth 32) = .ok (.lutenc n)) ∧
  ∀ (s : State) (w : Word32), cmdOp w = 0x5 → w &&& 0xFFFFFFF0 ≠ 0x50000000 →
    accept w s = .next { s with rsp := 0x52000000, rspValid := true }

/-- 40_lut.md rule R87: LUTDEC answers the nibble of a valid character, INVALID_CHAR with ERRMASK 0b01 otherwise, and
leaves CASE; its words are 0x600000aa and any other word with OP = 0x6 is ILLEGAL_CMD. -/
def Obligations.LutdecAnswers : Prop :=
  (∀ (ch : Byte) (s : State), exec (.lutdec ch) s = .next
    { s with
      rsp := if (lutDec ch).valid = true then rspWord 0x6 .ok 0b00 (zext16 (lutDec ch).nib) else 0x61010000
      rspValid := true }) ∧
  (∀ ch : Byte, decode (0x60000000 ||| ch.setWidth 32) = .ok (.lutdec ch)) ∧
  ∀ (s : State) (w : Word32), cmdOp w = 0x6 → w &&& 0xFFFFFF00 ≠ 0x60000000 →
    accept w s = .next { s with rsp := 0x62000000, rspValid := true }

/-- 41_encoder.md rules R100 and R102: `EncPair` looks up the high nibble for char0 and the low nibble for char1; both lanes of ENC's DATA are in the alphabet CASE selects, ENC is injective, and
`0x20000000 | DATA` is the DEC command that gives the byte back. -/
def Obligations.EncLaws : Prop :=
  (∀ (b : Byte) (s : State), ∃ t, exec (.enc b) s = .next t ∧
    lane0 (rspData t.rsp) ∈ alphabet s.caseMode ∧ lane1 (rspData t.rsp) ∈ alphabet s.caseMode ∧
    ∃ u, accept (0x20000000 ||| (rspData t.rsp).setWidth 32) t = .next u ∧
      u.rsp = rspWord 0x2 .ok 0b00 (zext16 b)) ∧
  (∀ (b b' : Byte) (m : CaseMode), encPair b m = encPair b' m → b = b') ∧
  (∀ (b : Byte) (m : CaseMode),
    (encPair b m).char0 = lutEnc (highNibble b) m ∧ (encPair b m).char1 = lutEnc (lowNibble b) m)

/-- 42_decoder.md rule R112 points 1 to 3: DEC answers OK exactly for pairs of the accepted alphabet, and folding the
case of either character changes nothing of the answer. -/
def Obligations.DecLaws : Prop :=
  ∀ (s : State) (c0 c1 : Byte),
    (∃ t, exec (.dec c0 c1) s = .next t ∧
      (rspStatus t.rsp = 0 ↔ c0 ∈ acceptedAlphabet ∧ c1 ∈ acceptedAlphabet)) ∧
    exec (.dec (toUpperASCII c0) (toUpperASCII c1)) s = exec (.dec c0 c1) s ∧
    exec (.dec (toLowerASCII c0) (toLowerASCII c1)) s = exec (.dec c0 c1) s

/-- 42_decoder.md rule R110, the ports of `DecPair`: valid0 and valid1 are the lookups' valid bits, ok is both, and the
byte is n0 * 16 + n1, forced to 0x00 unless both characters are valid. Rule R112 point 4: a byte has four valid pairs when both nibbles are at least 10, two when one is, one
when neither is. -/
def Obligations.SpellingsOfAByte : Prop :=
  (∀ c0 c1 : Byte,
    (decPair c0 c1).valid0 = (lutDec c0).valid ∧ (decPair c0 c1).valid1 = (lutDec c1).valid ∧
    ((decPair c0 c1).ok = true ↔ (lutDec c0).valid = true ∧ (lutDec c1).valid = true) ∧
    (decPair c0 c1).byteOut.toNat =
      (if (lutDec c0).valid = true ∧ (lutDec c1).valid = true then
        (lutDec c0).nib.toNat * 16 + (lutDec c1).nib.toNat
      else 0)) ∧
  ∀ b : Byte, ∃ l : List (Byte × Byte), l.Nodup ∧
    (∀ p : Byte × Byte, p ∈ l ↔ ((decPair p.1 p.2).ok = true ∧ (decPair p.1 p.2).byteOut = b)) ∧
    l.length =
      (if 10 ≤ highNibble b ∧ 10 ≤ lowNibble b then 4
       else if 10 ≤ highNibble b ∨ 10 ≤ lowNibble b then 2
       else 1)

/-! ### Errors -/

/-- 60_exceptions.md rule R161: INVALID_CHAR is answered exactly for a DEC or LUTDEC with a character outside the
accepted alphabet; ERRMASK bit 16 says operand A is invalid and bit 17 operand B; no CASE causes or prevents it. -/
def Obligations.InvalidCharCause : Prop :=
  ∀ (s : State) (w : Word32), ∃ t, accept w s = .next t ∧
    (rspStatus t.rsp = 1 ↔
      ((∃ c0 c1, decode w = .ok (.dec c0 c1) ∧ (c0 ∉ acceptedAlphabet ∨ c1 ∉ acceptedAlphabet)) ∨
       ∃ ch, decode w = .ok (.lutdec ch) ∧ ch ∉ acceptedAlphabet)) ∧
    (∀ c0 c1, decode w = .ok (.dec c0 c1) →
      (t.rsp.getLsbD 16 = true ↔ c0 ∉ acceptedAlphabet) ∧ (t.rsp.getLsbD 17 = true ↔ c1 ∉ acceptedAlphabet)) ∧
    (∀ ch, decode w = .ok (.lutdec ch) →
      (t.rsp.getLsbD 16 = true ↔ ch ∉ acceptedAlphabet) ∧ t.rsp.getLsbD 17 = false) ∧
    (∀ c : CaseMode, ∃ u, accept w { s with caseMode := c } = .next u ∧ (rspStatus u.rsp = 1 ↔ rspStatus t.rsp = 1))

/-- 60_exceptions.md rule R162, 43_control.md rule R123: ILLEGAL_CMD is answered exactly for a word no row of rule R64
accepts, with OPECHO = cmd[31:28], ERRMASK and DATA 0, and nothing else changes. Legality is decided first, so it beats
INVALID_CHAR (rule R164 point 1). -/
def Obligations.IllegalCmdCause : Prop :=
  ∀ (s : State) (w : Word32),
    (∃ t, accept w s = .next t ∧ (rspStatus t.rsp = 2 ↔ ¬ ∃ r ∈ encodingRows, w &&& r.mask = r.pattern)) ∧
    ((¬ ∃ r ∈ encodingRows, w &&& r.mask = r.pattern) →
      accept w s = .next { s with rsp := rspWord (cmdOp w) .illegalCmd 0b00 0x0000, rspValid := true })

/-- 60_exceptions.md rules R166 and R167: after an erroring command the block is what it was but for RSP and RSP_VALID,
and the next command runs as if the error had not been. -/
def Obligations.ErrorsAreNotSticky : Prop :=
  ∀ (s t : State) (w : Word32), accept w s = .next t → rspStatus t.rsp ≠ 0 →
    t = { s with rsp := t.rsp, rspValid := true } ∧ rspOp t.rsp = cmdOp w ∧
    ∀ w' : Word32, accept w' t = accept w' s

/-! ### Hazards, capture, boot -/

/-- 70_reset_and_hazards.md rule R183: every command reads the CASE left by the command accepted at the edge before it;
SETCASE followed at once by ENC or LUTENC uses the new mode. -/
def Obligations.NoInterCommandHazard : Prop :=
  (∀ (s : State) (w₁ w₂ : Word32) (rest : List PortIn),
    edges 2 { s with inputs := commandIn w₁ :: commandIn w₂ :: rest } =
      .next ⟨(transact (transact s.caseMode w₁).1 w₂).1, (transact (transact s.caseMode w₁).1 w₂).2, true, rest⟩) ∧
  (∀ (s : State) (m : CaseMode) (b : Byte) (n : Nibble) (rest : List PortIn),
    (∃ t, edges 2
        { s with inputs := commandIn (encode (.setcase m)) :: commandIn (encode (.enc b)) :: rest } = .next t ∧
      rspData t.rsp = lanes (lutEnc (lowNibble b) m) (lutEnc (highNibble b) m)) ∧
    (∃ t, edges 2
        { s with inputs := commandIn (encode (.setcase m)) :: commandIn (encode (.lutenc n)) :: rest } = .next t ∧
      rspData t.rsp = zext16 (lutEnc n m)))

/-- 70_reset_and_hazards.md rule R184: the response of edge t is in `rsp` with `rsp_valid` = 1 until edge t+1; a command
accepted then replaces it; if none is, RSP keeps its value and `rsp_valid` falls. -/
def Obligations.ResponseIsVisibleOneCycle : Prop :=
  ∀ (s : State) (w : Word32), ∃ t, step (present (commandIn w) s) = .next t ∧
    outputs t = ⟨true, true, (transact s.caseMode w).2⟩ ∧ capture t = some (transact s.caseMode w).2 ∧
    (∀ w', ∃ u, step (present (commandIn w') t) = .next u ∧
      outputs u = ⟨true, true, (transact t.caseMode w').2⟩) ∧
    (∃ u, step (present idleIn t) = .next u ∧ outputs u = ⟨true, false, (outputs t).rsp⟩ ∧ capture u = none)

/-- 70_reset_and_hazards.md rule R182 and 44_buffer_ops.md rule R141: one reset edge gives a default codec (Lower), and a
SETCASE at the first edge after it gives a codec of the mode asked for. -/
def Obligations.BootAndConstruct : Prop :=
  (∀ (m : CaseMode) (s : State), construct m s = .next
    { s with caseMode := m, rsp := (if m = .lower then 0x30000000 else 0x30000001), rspValid := true }) ∧
  (∀ (s : State) (rest : List PortIn), ∃ t,
    edges 1 { s with inputs := resetIn false 0 :: rest } = .next t ∧ t.caseMode = .lower) ∧
  (∀ (s : State) (rest : List PortIn), ∃ t,
    edges 2 { s with inputs := resetIn false 0 :: commandIn 0x30000001 :: rest } = .next t ∧
    t.caseMode = .upper)

/-- 00_scope.md rule R6 and 70_reset_and_hazards.md rule R186: the tables' sizes, one response for each command in as
many edges as commands, and a response visible one edge after its command. -/
def Obligations.FixedParameters : Prop :=
  (∀ m, (forwardTable m).length = Config.forwardEntries) ∧
  [CaseMode.lower, CaseMode.upper].length = Config.caseModes ∧ (∀ m : CaseMode, m ∈ [CaseMode.lower, CaseMode.upper]) ∧
  (reverseRanges.map fun r => r.hi + 1 - r.lo).sum = Config.reverseEntries ∧
  (∀ (s : State) (ws : List Word32) (rest : List PortIn),
    (responses ws.length { s with inputs := programInputs ws ++ rest }).length = Config.throughput * ws.length) ∧
  (∀ (s : State) (w : Word32) (rest : List PortIn), ∃ t,
    edges Config.latency { s with inputs := commandIn w :: rest } = .next t ∧
    capture t = some (transact s.caseMode w).2)

/-! ### Host-level operations -/

/-- 44_buffer_ops.md rule R142: HexEncodeBuf refuses overlapping buffers, raises BufferTooSmall when C < 2N, and else
writes the text of src to dst[0:2N], touches nothing beyond, returns n = 2N with N commands issued, and leaves CASE and
the inputs to come; for N = 0 it issues no command and takes no edge. What overlap is, is log entry 7; that the checks
and an empty call take no edge is log entry 18. -/
def Obligations.HexEncodeBufResult : Prop :=
  ∀ (dst src : Buffer) (s : State),
    (bufOverlap src dst = true → hexEncodeBuf dst src s = .refused .overlappingBuffers) ∧
    (bufOverlap src dst = false → bufLen dst < 2 * bufLen src →
      hexEncodeBuf dst src s = .fault (.bufferTooSmall (2 * bufLen src) (bufLen dst))) ∧
    (bufOverlap src dst = false → 2 * bufLen src ≤ bufLen dst → ∃ t,
      hexEncodeBuf dst src s = .next
        (⟨.encode, src,
          ⟨dst.base, encodeText s.caseMode src.bytes ++ dst.bytes.drop (2 * bufLen src)⟩,
          bufLen src, bufLen src, .ok (2 * bufLen src)⟩, t) ∧
      t.caseMode = s.caseMode ∧ t.inputs = s.inputs ∧ (bufLen src = 0 → t = s))

/-- 44_buffer_ops.md rules R143 and R144: HexDecodeBuf refuses overlapping buffers, raises BufferTooSmall when
C < floor(L/2), and else writes the decoded bytes of the pairs before the first failing one, touches nothing beyond, and
returns the count with OK or with the position of the first invalid character; a trailing lone character is ignored.
What overlap is, is log entry 7; that the checks and a call with no complete pair take no edge is log entry 18. -/
def Obligations.HexDecodeBufResult : Prop :=
  ∀ (dst src : Buffer) (s : State),
    (bufOverlap src dst = true → hexDecodeBuf dst src s = .refused .overlappingBuffers) ∧
    (bufOverlap src dst = false → bufLen dst < bufLen src / 2 →
      hexDecodeBuf dst src s = .fault (.bufferTooSmall (bufLen src / 2) (bufLen dst))) ∧
    (bufOverlap src dst = false → bufLen src / 2 ≤ bufLen dst →
      ∃ t, hexDecodeBuf dst src s = .next
        (⟨.decode, src,
          ⟨dst.base, (decodeText 0 src.bytes).bytes ++ dst.bytes.drop (decodeText 0 src.bytes).bytes.length⟩,
          (decodeText 0 src.bytes).bytes.length,
          (decodeText 0 src.bytes).invalid.elim (bufLen src / 2)
            (fun _ => (decodeText 0 src.bytes).bytes.length + 1),
          (decodeText 0 src.bytes).invalid.elim (.ok (bufLen src / 2))
            (fun pos => .invalidCharacter (decodeText 0 src.bytes).bytes.length pos)⟩, t) ∧
      t.caseMode = s.caseMode ∧ t.inputs = s.inputs ∧ (bufLen src / 2 = 0 → t = s))

/-- 44_buffer_ops.md rules R143 to R145, as positions: if decoding a text meets no invalid character in a complete pair it
gives floor(L/2) bytes; else it gives the k bytes of the valid pairs before the first failing pair k, and the position is
2k if character 2k is invalid and 2k + 1 otherwise. -/
def Obligations.DecodedTextPositions : Prop :=
  ∀ cs : List Byte,
    ((decodeText 0 cs).invalid = none →
      (decodeText 0 cs).bytes.length = cs.length / 2 ∧
      ∀ i, i < 2 * (cs.length / 2) → ∃ c, cs[i]? = some c ∧ c ∈ acceptedAlphabet) ∧
    (∀ pos, (decodeText 0 cs).invalid = some pos →
      pos / 2 = (decodeText 0 cs).bytes.length ∧ pos < 2 * (cs.length / 2) ∧
      (∃ c, cs[pos]? = some c ∧ c ∉ acceptedAlphabet) ∧
      ∀ i, i < pos → ∃ c, cs[i]? = some c ∧ c ∈ acceptedAlphabet) ∧
    (∀ i b, (decodeText 0 cs).bytes[i]? = some b →
      ∃ c0 c1, cs[2 * i]? = some c0 ∧ cs[2 * i + 1]? = some c1 ∧
        b = joinNibbles (lutDec c0).nib (lutDec c1).nib)

/-- 20_memory.md rule R42, as positions: the text has two characters a byte, byte i's high nibble at 2i and its low
nibble at 2i + 1. -/
def Obligations.EncodedTextPositions : Prop :=
  ∀ (m : CaseMode) (bs : List Byte),
    (encodeText m bs).length = 2 * bs.length ∧
    ∀ i b, bs[i]? = some b →
      (encodeText m bs)[2 * i]? = some (lutEnc (highNibble b) m) ∧
      (encodeText m bs)[2 * i + 1]? = some (lutEnc (lowNibble b) m)

/-- 20_memory.md rule R54: a call of either operation with overlapping buffers is refused, and buffers overlap exactly
when they share the address of a byte (log entry 7). -/
def Obligations.OverlapIsRefused : Prop :=
  (∀ (k : OpKind) (src dst : Buffer) (s : State), bufOverlap src dst = true →
    opCall k src dst s = .refused .overlappingBuffers) ∧
  (∀ a b : Buffer, bufOverlap a b = true ↔
    ∃ x, (a.base ≤ x ∧ x < a.base + bufLen a) ∧ (b.base ≤ x ∧ x < b.base + bufLen b))

/-- 44_buffer_ops.md rule R146, 60_exceptions.md rule R164 point 3: a destination below the requirement is
BufferTooSmall before any command, whatever the source holds, so it beats InvalidCharacter. Rules R140, R150 and R163:
beside other agents' operations, a call ends so by itself, with no command, no write and no count, and the block and the
other operations go on as they were. What overlap is, is log entry 7. -/
def Obligations.BufferTooSmallComesFirst : Prop :=
  (∀ (k : OpKind) (src dst : Buffer) (s : State) (needed : Nat), bufOverlap src dst = false →
    needed = (if k = .encode then 2 * bufLen src else bufLen src / 2) →
    (opCall k src dst s = .fault (.bufferTooSmall needed (bufLen dst)) ↔ bufLen dst < needed)) ∧
  ∀ (k : OpKind) (src dst : Buffer) (y : System) (needed : Nat), bufOverlap src dst = false →
    needed = (if k = .encode then 2 * bufLen src else bufLen src / 2) → bufLen dst < needed →
    ∃ op : HostOp, sysStep (.call k src dst) y = .next { y with ops := y.ops ++ [op] } ∧
      op.status = .faulted (.bufferTooSmall needed (bufLen dst)) ∧ op.src = src ∧ op.dst = dst ∧ op.issued = 0 ∧
      opResult op = none

/-- 20_memory.md rule R41: no host-level operation reads or writes an index outside its buffers (the fault that such an
access would end in is the model's choice, log entry 12). Beside other operations too (44_buffer_ops.md rule R150): from
operations that calls leave (`opFits`), no event faults, and every event leaves such operations. -/
def Obligations.NoIndexOutsideBuffers : Prop :=
  (∀ (k : OpKind) (src dst : Buffer) (s : State) (i n : Nat),
    opCall k src dst s ≠ .fault (.bufferIndex i n)) ∧
  ∀ (e : SysEvent) (y : System), (∀ op ∈ y.ops, opFits op) →
    (∀ f, sysStep e y ≠ .fault f) ∧ ∀ y', sysStep e y = .next y' → ∀ op ∈ y'.ops, opFits op

/-- 44_buffer_ops.md rule R149 point 1: encoding a buffer into any buffer with room and decoding the text that was
written gives the bytes back with OK, under either CASE. What overlap is, is log entry 7. -/
def Obligations.RoundTrip : Prop :=
  ∀ (src mid dst : Buffer) (s : State),
    bufOverlap src mid = false → 2 * bufLen src ≤ bufLen mid → bufOverlap mid dst = false → bufLen src ≤ bufLen dst →
    ∃ op₁ t₁ op₂ t₂,
      hexEncodeBuf mid src s = .next (op₁, t₁) ∧ op₁.status = .ok (2 * bufLen src) ∧
      hexDecodeBuf dst (bufTake (2 * bufLen src) op₁.dst) t₁ = .next (op₂, t₂) ∧ op₂.status = .ok (bufLen src) ∧
      op₂.dst.bytes = src.bytes ++ dst.bytes.drop (bufLen src)

/-- 44_buffer_ops.md rule R149 point 2: decoding a text and decoding it with its case folded either way give the same
bytes, the same count and the same status, positions included. -/
def Obligations.DecodeIsCaseInvariant : Prop :=
  ∀ (dst src : Buffer) (s : State) (fold : Byte → Byte), fold = toUpperASCII ∨ fold = toLowerASCII →
    bufOverlap src dst = false → bufLen src / 2 ≤ bufLen dst →
    ∃ op t op' t',
      hexDecodeBuf dst src s = .next (op, t) ∧
      hexDecodeBuf dst { src with bytes := src.bytes.map fold } s = .next (op', t') ∧
      op'.dst = op.dst ∧ op'.status = op.status

/-- 44_buffer_ops.md rule R149 point 4: every character HexEncodeBuf writes is in the alphabet CASE selects. -/
def Obligations.EncodeConformsToAlphabet : Prop :=
  ∀ (dst src : Buffer) (s : State), bufOverlap src dst = false → 2 * bufLen src ≤ bufLen dst →
    ∃ op t, hexEncodeBuf dst src s = .next (op, t) ∧
      ∀ i, i < 2 * bufLen src → ∃ c, op.dst.bytes[i]? = some c ∧ c ∈ alphabet s.caseMode

/-- 20_memory.md rule R52, 44_buffer_ops.md rules R142 and R147: an edge granted to an encode in progress writes the two
characters of its byte in the alphabet of the CASE at that edge, and no other byte of dst. -/
def Obligations.EncodeUsesCaseOfEachEdge : Prop :=
  ∀ (op : HostOp) (s : State) (b : Byte),
    op.kind = .encode → op.status = .running → op.src.bytes[op.idx]? = some b → 2 * op.idx + 1 < bufLen op.dst →
    ∃ op' t, opEdge op s = .next (op', t) ∧ t.caseMode = s.caseMode ∧ op'.src = op.src ∧ op'.issued = op.issued + 1 ∧
      op'.dst.bytes[2 * op.idx]? = some (lutEnc (highNibble b) s.caseMode) ∧
      op'.dst.bytes[2 * op.idx + 1]? = some (lutEnc (lowNibble b) s.caseMode) ∧
      ∀ i, i ≠ 2 * op.idx → i ≠ 2 * op.idx + 1 → op'.dst.bytes[i]? = op.dst.bytes[i]?

/-- 44_buffer_ops.md rule R150: while no SETCASE from outside and no reset comes between, each of several host-level
operations on distinct buffers (`opsDistinct`, from `buffersClash`; buffers are held by value, log entry 6) stands, after
any interleaving, where it would stand run alone for as many commands; so does each operation called meanwhile, counted
from its call, one that its call ended by BufferTooSmall included; and all of them still have distinct buffers. That each
response goes to its issuer is presumed in log entry 9, and that a refused call ends the run is log entry 19. -/
def Obligations.ConcurrentOperationsDoNotInterfere : Prop :=
  ∀ (es : List SysEvent) (y y' : System), opsDistinct y.ops → (∀ e ∈ es, keepsCase e = true) →
    sysRun es y = .next y' →
    opsDistinct y'.ops ∧
    (∀ (k : Nat) (op : HostOp), y.ops[k]? = some op →
      ∃ op' t, opRun (grantsTo k es) op y.block = .next (op', t) ∧ y'.ops[k]? = some op') ∧
    ∀ (before after : List SysEvent) (kind : OpKind) (src dst : Buffer), es = before ++ .call kind src dst :: after →
      ∃ op op' t, opCalled kind src dst = .next op ∧
        opRun (grantsTo (y.ops.length + callsIn before) after) op y.block = .next (op', t) ∧
        y'.ops[y.ops.length + callsIn before]? = some op'

/-- 44_buffer_ops.md rule R149, all four points, under the preconditions of rule R147 and with room in the destinations.
What overlap is, is log entry 7. -/
def Obligations.TestablePropertiesHold : Prop :=
  (∀ (src mid dst : Buffer) (s : State), bufOverlap src mid = false → bufOverlap mid dst = false →
    2 * bufLen src ≤ bufLen mid → bufLen src ≤ bufLen dst → RoundTrips src mid dst s) ∧
  (∀ (src dst : Buffer) (s : State), bufOverlap src dst = false →
    (bufLen src / 2 ≤ bufLen dst → DecodesCaseInvariantly src dst s ∧ DecodesToHalfTheLength src dst s) ∧
    (2 * bufLen src ≤ bufLen dst → EncodesToTwiceTheLength src dst s ∧ EncodesInAlphabet src dst s))

/-! ### Assembler notation -/

/-- 30_encoding.md rules R68 and R69: disassembling any word and assembling the statement gives the word back, and a
pseudo-instruction is never printed. That `.word` is printed only for an illegal word is the model's choice (log entry
11): rule R68 says only that an illegal word needs it. -/
def Obligations.AssembleTakesBackDisassembly : Prop :=
  ∀ w : Word32,
    assemble (disassemble w) = .ok w ∧ disassemble w ≠ .lower ∧ disassemble w ≠ .upper ∧
    (legal w = true → ∀ n, disassemble w ≠ .word n)

/-- 30_encoding.md rules R68 and R69: `.word` is the only way to write an illegal word, an operand out of range is an
error and not a command, and LOWER and UPPER are SETCASE 0 and SETCASE 1. -/
def Obligations.AssemblerWritesLegalWords : Prop :=
  (∀ (a : AsmStmt) (w : Word32), assemble a = .ok w → legal w = false → ∃ n, a = .word n) ∧
  (∀ a : AsmStmt, (∃ w, assemble a = .ok w) ↔ asmInRange a = true) ∧
  (∀ b : Nat, 256 ≤ b → assemble (.enc b) = .error .operandOutOfRange) ∧
  (∀ n : Nat, 16 ≤ n → assemble (.lutenc n) = .error .operandOutOfRange) ∧
  (∀ c0 c1 : Nat, 256 ≤ c0 ∨ 256 ≤ c1 → assemble (.dec c0 c1) = .error .operandOutOfRange) ∧
  (∀ ch : Nat, 256 ≤ ch → assemble (.lutdec ch) = .error .operandOutOfRange) ∧
  (∀ m : Nat, 2 ≤ m → assemble (.setcase m) = .error .operandOutOfRange) ∧
  (∀ w : Nat, 2 ^ 32 ≤ w → assemble (.word w) = .error .operandOutOfRange) ∧
  assemble .lower = .ok 0x30000000 ∧ assemble .upper = .ok 0x30000001 ∧
  assemble (.setcase 0) = assemble .lower ∧ assemble (.setcase 1) = assemble .upper
end

