-- ==== Sys2Proof/Laws/Fields.lean ====
section
/-!
SUPPORT. The laws of the bit fields: lanes, nibbles, the fields of a response word, the case bit.
-/
namespace Sys2Proof

@[simp] theorem CaseMode.ofBit_bit (m : CaseMode) : CaseMode.ofBit m.bit = m := by
  cases m <;> rfl

@[simp] theorem CaseMode.bit_ofBit (b : Bit) : (CaseMode.ofBit b).bit = b := by
  revert b; decide

namespace Machine

@[simp] theorem lane0_lanes (l1 l0 : Byte) : lane0 (lanes l1 l0) = l0 := by
  ext i hi; interval_cases i <;> simp [lane0, lanes]

@[simp] theorem lane1_lanes (l1 l0 : Byte) : lane1 (lanes l1 l0) = l1 := by
  ext i hi; interval_cases i <;> simp [lane1, lanes]

@[simp] theorem lane0_zext16_byte (b : Byte) : lane0 (zext16 b) = b := by
  ext i hi; interval_cases i <;> simp [lane0, zext16]

@[simp] theorem highNibble_join (n0 n1 : Nibble) : highNibble (joinNibbles n0 n1) = n0 := by
  ext i hi; interval_cases i <;> simp [highNibble, joinNibbles]

@[simp] theorem lowNibble_join (n0 n1 : Nibble) : lowNibble (joinNibbles n0 n1) = n1 := by
  ext i hi; interval_cases i <;> simp [lowNibble, joinNibbles]

@[simp] theorem join_nibbles (b : Byte) : joinNibbles (highNibble b) (lowNibble b) = b := by
  revert b; decide +kernel

section
variable (op : BitVec 4) (st : Status) (em : BitVec 2) (d : Data)

@[simp] theorem rspOp_rspWord : rspOp (rspWord op st em d) = op := by
  ext i hi; interval_cases i <;> simp [rspOp, rspWord]

@[simp] theorem rspStatus_rspWord : rspStatus (rspWord op st em d) = st.code := by
  ext i hi; interval_cases i <;> simp [rspStatus, rspWord]

@[simp] theorem rspZero_rspWord : rspZero (rspWord op st em d) = 0 := by
  ext i hi; interval_cases i <;> simp [rspZero, rspWord]

@[simp] theorem rspErrMask_rspWord : rspErrMask (rspWord op st em d) = em := by
  ext i hi; interval_cases i <;> simp [rspErrMask, rspWord]

@[simp] theorem rspData_rspWord : rspData (rspWord op st em d) = d := by
  ext i hi; interval_cases i <;> simp [rspData, rspWord]

end

@[simp] theorem errMask_bit0 (v0 v1 : Bool) : (errMask v0 v1).getLsbD 0 = !v0 := by
  cases v0 <;> cases v1 <;> rfl

@[simp] theorem errMask_bit1 (v0 v1 : Bool) : (errMask v0 v1).getLsbD 1 = !v1 := by
  cases v0 <;> cases v1 <;> rfl

end Machine

end Sys2Proof
end

