-- ==== Sys2Proof/Laws/State.lean ====
section
/-!
SUPPORT. One lemma for each field of `State` under each update of it, so that no proof unfolds a record update.
-/
namespace Sys2Proof.Machine

@[simp] theorem reset_caseMode : State.reset.caseMode = .lower := rfl
@[simp] theorem reset_rsp : State.reset.rsp = 0 := rfl
@[simp] theorem reset_rspValid : State.reset.rspValid = false := rfl
@[simp] theorem reset_inputs : State.reset.inputs = [] := rfl

@[simp] theorem setCaseMode_caseMode (m : CaseMode) (s : State) : (setCaseMode m s).caseMode = m := rfl
@[simp] theorem setCaseMode_rsp (m : CaseMode) (s : State) : (setCaseMode m s).rsp = s.rsp := rfl
@[simp] theorem setCaseMode_rspValid (m : CaseMode) (s : State) : (setCaseMode m s).rspValid = s.rspValid := rfl
@[simp] theorem setCaseMode_inputs (m : CaseMode) (s : State) : (setCaseMode m s).inputs = s.inputs := rfl

@[simp] theorem respond_caseMode (r : Word32) (s : State) : (respond r s).caseMode = s.caseMode := rfl
@[simp] theorem respond_rsp (r : Word32) (s : State) : (respond r s).rsp = r := rfl
@[simp] theorem respond_rspValid (r : Word32) (s : State) : (respond r s).rspValid = true := rfl
@[simp] theorem respond_inputs (r : Word32) (s : State) : (respond r s).inputs = s.inputs := rfl

@[simp] theorem resetEdge_caseMode (s : State) : (resetEdge s).caseMode = .lower := rfl
@[simp] theorem resetEdge_rsp (s : State) : (resetEdge s).rsp = 0 := rfl
@[simp] theorem resetEdge_rspValid (s : State) : (resetEdge s).rspValid = false := rfl
@[simp] theorem resetEdge_inputs (s : State) : (resetEdge s).inputs = s.inputs := rfl

@[simp] theorem idleEdge_caseMode (s : State) : (idleEdge s).caseMode = s.caseMode := rfl
@[simp] theorem idleEdge_rsp (s : State) : (idleEdge s).rsp = s.rsp := rfl
@[simp] theorem idleEdge_rspValid (s : State) : (idleEdge s).rspValid = false := rfl
@[simp] theorem idleEdge_inputs (s : State) : (idleEdge s).inputs = s.inputs := rfl

@[simp] theorem afterSample_caseMode (s : State) : (afterSample s).caseMode = s.caseMode := rfl
@[simp] theorem afterSample_rsp (s : State) : (afterSample s).rsp = s.rsp := rfl
@[simp] theorem afterSample_rspValid (s : State) : (afterSample s).rspValid = s.rspValid := rfl
@[simp] theorem afterSample_inputs (s : State) : (afterSample s).inputs = s.inputs.tail := rfl

@[simp] theorem present_caseMode (p : PortIn) (s : State) : (present p s).caseMode = s.caseMode := rfl
@[simp] theorem present_rsp (p : PortIn) (s : State) : (present p s).rsp = s.rsp := rfl
@[simp] theorem present_rspValid (p : PortIn) (s : State) : (present p s).rspValid = s.rspValid := rfl
@[simp] theorem present_inputs (p : PortIn) (s : State) : (present p s).inputs = p :: s.inputs := rfl

/-- Presenting an edge's inputs and sampling them gives them back and leaves the state as it was. -/
@[simp] theorem sample_present (p : PortIn) (s : State) : sample (present p s) = p := rfl
@[simp] theorem afterSample_present (p : PortIn) (s : State) : afterSample (present p s) = s := rfl

end Sys2Proof.Machine
end

