-- ==== Sys2Proof/Laws/Ops.lean ====
section
/-!
SUPPORT. For each shared operation, what it can answer, once; and the shape every command's answer has.
-/
namespace Sys2Proof.Machine

section
variable {σ τ φ ρ : Type} (f : σ → Host.Outcome τ φ ρ)

@[simp] theorem andThen_next (s : σ) : andThen (.next s) f = f s := rfl
@[simp] theorem andThen_fault (r : φ) : andThen (.fault r) f = .fault r := rfl
@[simp] theorem andThen_refused (r : ρ) : andThen (.refused r) f = .refused r := rfl

/-- An `andThen` that answers a next state ran both of its parts. -/
theorem andThen_eq_next {o : Host.Outcome σ φ ρ} {f : σ → Host.Outcome τ φ ρ} {t : τ} (h : andThen o f = .next t) :
    ∃ s, o = .next s ∧ f s = .next t := by
  cases o with
  | next s    => exact ⟨s, rfl, h⟩
  | fault r   => cases h
  | refused r => cases h

end

/-- A command that succeeds changes RSP and RSP_VALID alone. -/
theorem completeOk_next {op : BitVec 4} {d : Data} {s t : State} (h : completeOk op d s = .next t) :
    t = respond (rspWord op .ok 0 d) s := by
  cases h; rfl

/-- An INVALID_CHAR error changes RSP and RSP_VALID alone. -/
theorem raiseInvalidChar_next {op : BitVec 4} {em : BitVec 2} {s t : State}
    (h : raiseInvalidChar op em s = .next t) : t = respond (rspWord op .invalidChar em 0) s := by
  cases h; rfl

/-- An ILLEGAL_CMD error changes RSP and RSP_VALID alone. -/
theorem raiseIllegal_next {op : BitVec 4} {s t : State} (h : raiseIllegal op s = .next t) :
    t = respond (rspWord op .illegalCmd 0 0) s := by
  cases h; rfl

/-- Every meaning answers a next state: some response, with CASE written only by SETCASE. -/
theorem exec_responds (i : Instr) (s : State) :
    ∃ r s', exec i s = .next (respond r s') ∧ (s' = s ∨ ∃ m, i = .setcase m ∧ s' = setCaseMode m s) := by
  cases i with
  | nop       => exact ⟨_, s, rfl, .inl rfl⟩
  | enc b     => exact ⟨_, s, rfl, .inl rfl⟩
  | dec c0 c1 =>
    simp only [exec, execDec]
    split
    · exact ⟨_, s, rfl, .inl rfl⟩
    · exact ⟨_, s, rfl, .inl rfl⟩
  | setcase m => exact ⟨_, setCaseMode m s, rfl, .inr ⟨m, rfl, rfl⟩⟩
  | getcase   => exact ⟨_, s, rfl, .inl rfl⟩
  | lutenc n  => exact ⟨_, s, rfl, .inl rfl⟩
  | lutdec ch =>
    simp only [exec, execLutdec]
    split
    · exact ⟨_, s, rfl, .inl rfl⟩
    · exact ⟨_, s, rfl, .inl rfl⟩

/-- An accept step on a word that decodes runs the command. -/
theorem accept_of_decode {w : Word32} {i : Instr} (h : decode w = .ok i) (s : State) :
    accept w s = exec i s := by
  simp [accept, h]

/-- An accept step on any other word answers ILLEGAL_CMD. -/
theorem accept_of_illegal {w : Word32} {e : IllegalWord} (h : decode w = .error e) (s : State) :
    accept w s = .next (respond (rspWord (cmdOp w) .illegalCmd 0 0) s) := by
  simp [accept, h, execIllegal, raiseIllegal, rspIllegal]

@[simp] theorem edge_reset (v : Bool) (w : Word32) (s : State) : edge (resetIn v w) s = .next (resetEdge s) := rfl

@[simp] theorem edge_command (w : Word32) (s : State) : edge (commandIn w) s = accept w s := rfl

@[simp] theorem edge_idleIn (s : State) : edge idleIn s = .next (idleEdge s) := rfl

/-- A step with an edge's inputs presented is that edge. -/
@[simp] theorem step_present (p : PortIn) (s : State) : step (present p s) = edge p s := rfl

@[simp] theorem outputs_rsp (s : State) : (outputs s).rsp = s.rsp := rfl
@[simp] theorem outputs_rspValid (s : State) : (outputs s).rspValid = s.rspValid := rfl
@[simp] theorem outputs_cmdReady (s : State) : (outputs s).cmdReady = true := rfl

/-- A host captures the response of the edge just past. -/
@[simp] theorem capture_respond (r : Word32) (s : State) : capture (respond r s) = some r := rfl

end Sys2Proof.Machine
end

