-- ==== Sys2Proof/Laws/Buffers.lean ====
section
/-!
SUPPORT. The laws of host buffers: a read after a write, and what a write keeps (20_memory.md rule R41); what an edge of
a host-level operation keeps; the result of a whole call.
-/
namespace Sys2Proof.Machine

/-- A write answers the same buffer with one byte set, and only inside it. -/
theorem bufWrite_next {b b' : Buffer} {i : Nat} {v : Byte} (h : bufWrite b i v = .next b') :
    i < bufLen b ∧ b' = { b with bytes := b.bytes.set i v } := by
  unfold bufWrite at h
  split at h
  · cases h; exact ⟨‹_›, rfl⟩
  · cases h

theorem bufWrite_inside {b : Buffer} {i : Nat} (v : Byte) (h : i < bufLen b) :
    bufWrite b i v = .next { b with bytes := b.bytes.set i v } := by
  simp [bufWrite, h]

theorem bufWrite_len {b b' : Buffer} {i : Nat} {v : Byte} (h : bufWrite b i v = .next b') :
    bufLen b' = bufLen b := by
  obtain ⟨-, rfl⟩ := bufWrite_next h
  simp [bufLen]

/-- A read after a write at the same index gives the byte written. -/
theorem bufRead_same {b b' : Buffer} {i : Nat} {v : Byte} (h : bufWrite b i v = .next b') :
    bufRead b' i = .next v := by
  obtain ⟨hi, rfl⟩ := bufWrite_next h
  rw [bufLen] at hi
  simp [bufRead, hi]

/-- A write leaves every other index alone. -/
theorem bufRead_other {b b' : Buffer} {i j : Nat} {v : Byte} (h : bufWrite b i v = .next b') (hij : i ≠ j) :
    bufRead b' j = bufRead b j := by
  obtain ⟨-, rfl⟩ := bufWrite_next h
  simp [bufRead, bufLen, List.getElem?_set_ne hij]

/-! ### Operations -/

/-- What an edge of a host-level operation keeps: its source, the place of its destination, and that it has ended. -/
structure Keeps (op op' : HostOp) : Prop where
  kind    : op'.kind = op.kind
  src     : op'.src = op.src
  base    : op'.dst.base = op.dst.base
  len     : bufLen op'.dst = bufLen op.dst
  running : op'.status = .running → op.status = .running

theorem Keeps.self (op : HostOp) : Keeps op op := ⟨rfl, rfl, rfl, rfl, id⟩

theorem bufWrite_base {b b' : Buffer} {i : Nat} {v : Byte} (h : bufWrite b i v = .next b') : b'.base = b.base := by
  obtain ⟨-, rfl⟩ := bufWrite_next h
  rfl

/-- `opSettle` changes the status alone. -/
theorem opSettle_keeps (op : HostOp) : Keeps op (opSettle op) := by
  unfold opSettle
  split
  · exact .self op
  · exact ⟨rfl, rfl, rfl, rfl, fun h => by cases h⟩

/-- Taking a response keeps a running operation's buffers where they are. -/
theorem opTake_keeps {op op' : HostOp} {r : Word32} (hr : op.status = .running) (h : opTake op r = .next op') :
    Keeps op op' := by
  unfold opTake at h
  split at h
  · obtain ⟨d0, h0, h⟩ := andThen_eq_next h
    obtain ⟨d1, h1, h⟩ := andThen_eq_next h
    cases h
    obtain ⟨k, s, b, l, -⟩ := opSettle_keeps { op with dst := d1, idx := op.idx + 1, issued := op.issued + 1 }
    exact ⟨k, s, b.trans ((bufWrite_base h1).trans (bufWrite_base h0)), l.trans ((bufWrite_len h1).trans (bufWrite_len h0)),
      fun _ => hr⟩
  · unfold takeDecode at h
    split at h
    · cases h; exact ⟨rfl, rfl, rfl, rfl, fun _ => hr⟩
    · obtain ⟨d, h0, h⟩ := andThen_eq_next h
      cases h
      obtain ⟨k, s, b, l, -⟩ := opSettle_keeps { op with dst := d, idx := op.idx + 1, issued := op.issued + 1 }
      exact ⟨k, s, b.trans (bufWrite_base h0), l.trans (bufWrite_len h0), fun _ => hr⟩

/-- An edge granted to an operation keeps its buffers where they are, and does not start it again. -/
theorem opEdge_keeps {op op' : HostOp} {s t : State} (h : opEdge op s = .next (op', t)) : Keeps op op' := by
  unfold opEdge at h
  split at h
  · obtain ⟨w, -, h⟩ := andThen_eq_next h
    obtain ⟨u, -, h⟩ := andThen_eq_next h
    obtain ⟨o, ho, h⟩ := andThen_eq_next h
    cases h
    unfold opCapture at ho
    split at ho
    · exact opTake_keeps ‹_› ho
    · cases ho
  · obtain ⟨u, -, h⟩ := andThen_eq_next h
    cases h
    exact .self op

/-- A call's operation stands on the buffers it was called with. -/
theorem opStart_next {k : OpKind} {src dst : Buffer} {op : HostOp} (h : opStart k src dst = .next op) :
    bufOverlap src dst = false ∧ opNeeded k (bufLen src) ≤ bufLen dst ∧
    op = opSettle ⟨k, src, dst, 0, 0, .running⟩ := by
  unfold opStart at h
  split at h
  · cases h
  · rename_i hover
    split at h
    · cases h
    · cases h; exact ⟨by simpa using hover, by omega, rfl⟩

/-- A call faults only by BufferTooSmall, and only with too little room (rule R163). -/
theorem opStart_fault {k : OpKind} {src dst : Buffer} {f : Fault} (h : opStart k src dst = .fault f) :
    bufOverlap src dst = false ∧ bufLen dst < opNeeded k (bufLen src) ∧
    f = .bufferTooSmall (opNeeded k (bufLen src)) (bufLen dst) := by
  unfold opStart at h
  split at h
  · cases h
  · rename_i hover
    split at h
    · cases h; exact ⟨by simpa using hover, ‹_›, rfl⟩
    · cases h

/-- Beside others a call never faults: its operation starts, or has ended by a fault. -/
theorem opCalled_next {k : OpKind} {src dst : Buffer} {op : HostOp} (h : opCalled k src dst = .next op) :
    op = opSettle ⟨k, src, dst, 0, 0, .running⟩ ∧ opNeeded k (bufLen src) ≤ bufLen dst ∨
    op = ⟨k, src, dst, 0, 0, .faulted (.bufferTooSmall (opNeeded k (bufLen src)) (bufLen dst))⟩ := by
  unfold opCalled at h
  split at h
  · rename_i hs
    cases h
    obtain ⟨-, hroom, rfl⟩ := opStart_next hs
    exact .inl ⟨rfl, hroom⟩
  · rename_i hs
    cases h
    obtain ⟨-, -, rfl⟩ := opStart_fault hs
    exact .inr rfl
  · cases h

theorem opCalled_ne_fault (k : OpKind) (src dst : Buffer) (f : Fault) : opCalled k src dst ≠ .fault f := by
  unfold opCalled
  split <;> simp

/-- `opSettle` lets an operation run only while an element is left. -/
theorem opSettle_fits {op : HostOp} (h : opNeeded op.kind (bufLen op.src) ≤ bufLen op.dst) : opFits (opSettle op) := by
  unfold opSettle
  split
  · exact fun _ => ⟨‹_›, h⟩
  · exact fun hr => by cases hr

/-- Overlap sees the place of a buffer and its length alone. -/
theorem bufOverlap_congr {a a' b b' : Buffer} (ha : a'.base = a.base) (hl : bufLen a' = bufLen a)
    (hb : b'.base = b.base) (hm : bufLen b' = bufLen b) : bufOverlap a' b' = bufOverlap a b := by
  simp only [bufOverlap, ha, hl, hb, hm]

/-! ### Results -/

theorem callResult_of_next {k : OpKind} {src dst : Buffer} {s t : State} {op : HostOp}
    (h : opCall k src dst s = .next (op, t)) : callResult k src dst s = opResult op := by
  simp [callResult, h]

@[simp] theorem bufLen_bufTake (n : Nat) (b : Buffer) : bufLen (bufTake n b) = min n (bufLen b) := by
  simp [bufLen, bufTake]

@[simp] theorem bufLen_bufMap (f : Byte → Byte) (b : Buffer) : bufLen (bufMap f b) = bufLen b := by
  simp [bufLen, bufMap]

end Sys2Proof.Machine
end

