-- ==== Sys2Proof/Laws/Lut.lean ====
section
/-!
SUPPORT. The ports of the combinational blocks, in terms of the two lookups.
-/
namespace Sys2Proof.Machine

@[simp] theorem hexNibbleLut_encChar (i : LutIn) :
    (hexNibbleLut i).encChar = lutEnc i.encNib (CaseMode.ofBit i.encUpper) := rfl
@[simp] theorem hexNibbleLut_decValid (i : LutIn) : (hexNibbleLut i).decValid = (lutDec i.decChar).valid := rfl
@[simp] theorem hexNibbleLut_decNib (i : LutIn) : (hexNibbleLut i).decNib = (lutDec i.decChar).nib := rfl

@[simp] theorem encPair_char0 (b : Byte) (m : CaseMode) : (encPair b m).char0 = lutEnc (highNibble b) m := by
  simp [encPair]
@[simp] theorem encPair_char1 (b : Byte) (m : CaseMode) : (encPair b m).char1 = lutEnc (lowNibble b) m := by
  simp [encPair]

@[simp] theorem decPair_valid0 (c0 c1 : Byte) : (decPair c0 c1).valid0 = (lutDec c0).valid := rfl
@[simp] theorem decPair_valid1 (c0 c1 : Byte) : (decPair c0 c1).valid1 = (lutDec c1).valid := rfl
@[simp] theorem decPair_ok (c0 c1 : Byte) : (decPair c0 c1).ok = ((lutDec c0).valid && (lutDec c1).valid) := rfl

theorem decPair_byteOut (c0 c1 : Byte) (h : (decPair c0 c1).ok = true) :
    (decPair c0 c1).byteOut = joinNibbles (lutDec c0).nib (lutDec c1).nib := by
  simp only [decPair_ok, Bool.and_eq_true] at h
  simp [decPair, h.1, h.2]

end Sys2Proof.Machine
end

