-- ==== Sys2Proof/Laws/PerInstr.lean ====
section
/-!
SUPPORT. One family of statements made for each command: its word lies in its own row of the table of 30_encoding.md
rule R64.
-/
namespace Sys2Proof.Laws.TableRow

/-- The encoded word, under its row's mask, is its row's match. -/
def Statement (i : Instr) : Prop := encode i &&& (encodingRow i).mask = (encodingRow i).pattern

theorem nop : Statement .nop := by
  unfold Statement; decide

theorem enc (b : Byte) : Statement (.enc b) := by
  revert b; unfold Statement; decide +kernel

/-- The mask of DEC keeps no operand bit. -/
theorem data_under_mask (d : Data) : d.setWidth 32 &&& 0xFFFF0000#32 = 0#32 := by
  ext i hi; interval_cases i <;> simp

theorem dec (c0 c1 : Byte) : Statement (.dec c0 c1) := by
  have h := data_under_mask (Machine.lanes c1 c0)
  simp only [Statement, encode, opcode, operandBits, encodingRow, BitVec.and_or_distrib_right]
  show _ ||| (Machine.lanes c1 c0).setWidth 32 &&& 0xFFFF0000#32 = _
  rw [h]; rfl

theorem setcase (m : CaseMode) : Statement (.setcase m) := by
  unfold Statement; cases m <;> decide

theorem getcase : Statement .getcase := by
  unfold Statement; decide

theorem lutenc (n : Nibble) : Statement (.lutenc n) := by
  revert n; unfold Statement; decide +kernel

theorem lutdec (ch : Byte) : Statement (.lutdec ch) := by
  revert ch; unfold Statement; decide +kernel

end Sys2Proof.Laws.TableRow
end

