-- ==== Sys2Proof/Laws/Run.lean ====
section
/-!
SUPPORT. Runs of the machine behind the host's interface, one step at a time.
-/
namespace Sys2Proof.Machine

/-- The host's run of any machine, unfolded once. -/
theorem run_succ_of_core (M : Host.Core) (k : Nat) (s : M.State) :
    M.run (k + 1) s =
      match M.step s with
      | .next t    => M.run k t
      | .fault r   => .fault r
      | .refused r => .refused r := rfl

/-- The host's run of this machine is `edges`. -/
theorem core_run_eq_edges (k : Nat) (s : State) : Host.Core.run core k s = edges k s := by
  induction k generalizing s with
  | zero => rfl
  | succ k ih =>
    rw [edges]
    refine (run_succ_of_core core k s).trans ?_
    cases h : step s with
    | next t    => rw [show core.step s = .next t from h]; exact ih t
    | fault r   => rw [show core.step s = .fault r from h]; rfl
    | refused r => rw [show core.step s = .refused r from h]; rfl

@[simp] theorem edges_zero (s : State) : edges 0 s = .next s := rfl

/-- `k + 1` edges are a step and `k` edges. -/
theorem edges_succ (k : Nat) (s : State) : edges (k + 1) s = andThen (step s) (edges k) := rfl

end Sys2Proof.Machine
end

