-- ==== Sys2Proof/Tests/Slice0.lean ====
section
/-!
SUPPORT. Tests and witnesses. Every expected value comes from spec/95_test_vectors.md (its section is named) or from the
rule named, never from running the model. The witnesses show that the hypotheses of each statement can be met together.
-/
namespace Sys2Proof.Tests
open Sys2Proof Sys2Proof.Machine

/-! ### Helpers -/

/-- A small state with a given CASE and nothing driven yet. -/
def at_ (m : CaseMode) : State := { State.reset with caseMode := m }

/-- The response and the CASE after one accepted word. -/
def answer (m : CaseMode) (w : Word32) : Option (Word32 × CaseMode) :=
  match step (present (commandIn w) (at_ m)) with
  | .next t    => some (t.rsp, t.caseMode)
  | .fault _   => none
  | .refused _ => none

/-- The destination bytes and the status a call ends with. -/
def ended (o : Host.Outcome (HostOp × State) Fault Refusal) : Option (List Byte × OpStatus) :=
  match o with
  | .next p    => some (p.1.dst.bytes, p.1.status)
  | .fault _   => none
  | .refused _ => none

/-! ### Well-formedness: for each row of rule R64 a word with a must-be-zero bit set is refused, and an undefined OP -/

theorem test_legal_refuses_nop : legal 0x00000001 = false := by decide
theorem test_legal_refuses_enc : legal 0x100001FF = false := by decide
theorem test_legal_refuses_dec : legal 0x20016130 = false := by decide
theorem test_legal_refuses_setcase : legal 0x30000002 = false := by decide
theorem test_legal_refuses_getcase : legal 0x40000001 = false := by decide
theorem test_legal_refuses_lutenc : legal 0x50000010 = false := by decide
theorem test_legal_refuses_lutdec : legal 0x60000130 = false := by decide
theorem test_legal_refuses_opcode_7 : legal 0x70000000 = false := by decide
theorem test_legal_accepts : (legal 0x1000000A && legal 0x20006130 && legal 0x30000001) = true := by decide

/-! ### Decoding: words written out from the encoding tables (rules R60 to R64) -/

theorem test_decode_nop : decodeTableWord 32 0b00000000000000000000000000000000 = some .nop := by decide
theorem test_decode_enc : decodeTableWord 32 0b00010000000000000000000010100101 = some (.enc 0xA5) := by decide
theorem test_decode_dec : decodeTableWord 32 0b00100000000000000110000100110000 = some (.dec 0x30 0x61) := by decide
theorem test_decode_setcase : decodeTableWord 32 0b00110000000000000000000000000001 = some (.setcase .upper) := by decide
theorem test_decode_getcase : decodeTableWord 32 0b01000000000000000000000000000000 = some .getcase := by decide
theorem test_decode_lutenc : decodeTableWord 32 0b01010000000000000000000000001011 = some (.lutenc 0xB) := by decide
theorem test_decode_lutdec : decodeTableWord 32 0b01100000000000000000000001000110 = some (.lutdec 0x46) := by decide
theorem test_decode_refuses_opcode : decode 0xF0000000 = .error (.undefinedOpcode 0xF) := by decide
theorem test_decode_refuses_bit : decode 0x30000003 = .error (.mustBeZero "SETCASE") := by decide
theorem test_encode_dec : encode (.dec 0x44 0x65) = 0x20006544 := by decide

/-! ### One command each (95_test_vectors.md sections 2 to 5) -/

theorem test_nop : answer .upper 0x00000000 = some (0x00000000, .upper) := by decide
theorem test_enc_lower : answer .lower 0x100000A5 = some (0x10003561, .lower) := by decide
theorem test_enc_upper : answer .upper 0x100000A5 = some (0x10003541, .upper) := by decide
theorem test_dec_mixed : answer .upper 0x20006641 = some (0x200000AF, .upper) := by decide
theorem test_dec_second_invalid : answer .lower 0x20006731 = some (0x21020000, .lower) := by decide
theorem test_setcase_lower : answer .upper 0x30000000 = some (0x30000000, .lower) := by decide
theorem test_setcase_upper : answer .lower 0x30000001 = some (0x30000001, .upper) := by decide
theorem test_getcase : answer .upper 0x40000000 = some (0x40000001, .upper) := by decide
theorem test_lutenc_digit : answer .upper 0x50000009 = some (0x50000039, .upper) := by decide
theorem test_lutenc_letter : answer .lower 0x5000000A = some (0x50000061, .lower) := by decide
theorem test_lutdec_valid : answer .lower 0x60000046 = some (0x6000000F, .lower) := by decide
theorem test_lutdec_invalid : answer .lower 0x60000060 = some (0x61010000, .lower) := by decide
theorem test_illegal_setcase : answer .upper 0x30000003 = some (0x32000000, .upper) := by decide
theorem test_illegal_opcode : answer .upper 0xFFFFFFFF = some (0xF2000000, .upper) := by decide
theorem test_illegal_beats_invalid : answer .lower 0x2FFF6767 = some (0x22000000, .lower) := by decide

/-! ### Cycle level (95_test_vectors.md section 6) -/

theorem test_fetch_from_reset :
    step (State.reset.withFetchWord 32 0x30000001) = .next ⟨.upper, 0x30000001, true, []⟩ := by rfl
theorem test_idle_holds : step ⟨.upper, 0x10004241, true, []⟩ = .next ⟨.upper, 0x10004241, false, []⟩ := by rfl
theorem test_reset_beats_command :
    step (present (resetIn true 0x30000001) ⟨.upper, 0x10004241, false, []⟩) =
      .next ⟨.lower, 0x00000000, false, []⟩ := by rfl

/-! ### Host-level operations (95_test_vectors.md sections 1 and 7), the smallest that show each rule -/

theorem test_encode_one :
    ended (hexEncodeBuf ⟨8, [0xEE, 0xEE, 0xEE]⟩ ⟨0, [0xAB]⟩ (at_ .lower)) =
      some ([0x61, 0x62, 0xEE], .ok 2) := by decide
theorem test_encode_too_small :
    hexEncodeBuf ⟨8, [0xEE, 0xEE, 0xEE, 0xEE, 0xEE]⟩ ⟨0, [0, 0, 0]⟩ (at_ .lower) = .fault (.bufferTooSmall 6 5) := by rfl
theorem test_decode_odd :
    ended (hexDecodeBuf ⟨8, [0xEE]⟩ ⟨0, [0x30, 0x61, 0x5A]⟩ (at_ .lower)) = some ([0x0A], .ok 1) := by decide
theorem test_decode_invalid :
    ended (hexDecodeBuf ⟨8, [0xEE, 0xEE]⟩ ⟨0, [0x30, 0x30, 0x67, 0x31]⟩ (at_ .lower)) =
      some ([0x00, 0xEE], .invalidCharacter 1 2) := by decide
theorem test_decode_second_invalid :
    ended (hexDecodeBuf ⟨8, [0xEE]⟩ ⟨0, [0x30, 0x67, 0x31]⟩ (at_ .lower)) =
      some ([0xEE], .invalidCharacter 0 1) := by decide
theorem test_result_of_call :
    callResult .decode ⟨0, [0x30, 0x30, 0x67, 0x31]⟩ ⟨8, [0xEE, 0xEE]⟩ (at_ .lower) = some ⟨[0x00], 1, some 2⟩ := by rfl
theorem test_call_fault_ends_its_operation :
    sysStep (.call .encode ⟨0, [0, 0, 0]⟩ ⟨8, [0, 0, 0, 0, 0]⟩) ⟨at_ .lower, []⟩ =
      .next ⟨at_ .lower, [⟨.encode, ⟨0, [0, 0, 0]⟩, ⟨8, [0, 0, 0, 0, 0]⟩, 0, 0, .faulted (.bufferTooSmall 6 5)⟩]⟩ := by rfl
/-- A call on the dst of a running operation, with room for its text or not, then an edge granted to that operation. -/
def clashingCall (room : List Byte) : Host.Outcome System Fault Refusal :=
  sysRun [.call .encode ⟨0, [0]⟩ ⟨8, room⟩, .grant 0]
    ⟨at_ .lower, [⟨.encode, ⟨4, [0xAB]⟩, ⟨8, [0, 0]⟩, 0, 0, .running⟩]⟩

/-- The status of each operation after a run. -/
def statuses (o : Host.Outcome System Fault Refusal) : Option (List OpStatus) :=
  match o with
  | .next y    => some (y.ops.map fun op => op.status)
  | .fault _   => none
  | .refused _ => none

theorem test_too_small_leaves_the_others :
    statuses (clashingCall [0]) = some [.ok 2, .faulted (.bufferTooSmall 2 1)] := by decide
theorem test_clash_refused : clashingCall [0, 0] = .refused .sharedBuffers := by rfl
theorem test_overlap_refused :
    hexDecodeBuf ⟨1, [0xEE]⟩ ⟨0, [0x30, 0x61]⟩ (at_ .lower) = .refused .overlappingBuffers := by rfl
theorem test_missed_refused :
    sysStep (.missed 0) ⟨at_ .lower, [⟨.encode, ⟨0, [0xAB]⟩, ⟨8, [0, 0]⟩, 0, 0, .running⟩]⟩ =
      .refused .responseNotCaptured := by rfl

/-! ### Assembler (rules R68 and R69, 95_test_vectors.md section 8) -/

theorem test_asm_enc : assembleLine ['E', 'N', 'C', ' ', '0', 'x', 'A', '5'] = .ok (some 0x100000A5) := by rfl
theorem test_asm_dec :
    assembleLine ['d', 'e', 'c', ' ', '\'', 'x', '\'', ',', '\'', '0', '\'', ' ', ';', 'c'] =
      .ok (some 0x20003078) := by rfl
theorem test_asm_upper : assembleLine ['U', 'p', 'p', 'e', 'r'] = .ok (some 0x30000001) := by rfl
theorem test_asm_mode : assembleLine ['S', 'E', 'T', 'C', 'A', 'S', 'E', ' ', 'U', 'P', 'P', 'E', 'R'] =
    .ok (some 0x30000001) := by rfl
theorem test_asm_word : assembleLine ['.', 'w', 'o', 'r', 'd', ' ', '0', 'x', '9', '0', '0', '0', '0', '0', '0', '0'] =
    .ok (some 0x90000000) := by rfl
theorem test_asm_out_of_range :
    assembleLine ['L', 'U', 'T', 'E', 'N', 'C', ' ', '1', '6'] = .error .operandOutOfRange := by rfl
theorem test_asm_comment : assembleLine [' ', ';', ' ', 'N'] = .ok none := by rfl
theorem test_asm_print : parseLine (asmText (disassemble 0x20006544)) = .ok (some (.dec 0x44 0x65)) := by rfl

/-- Two operations on buffers of their own. -/
def twoOps : List HostOp :=
  [⟨.encode, ⟨0, [0xAB]⟩, ⟨8, [0, 0]⟩, 0, 0, .running⟩, ⟨.decode, ⟨16, [0x30, 0x61]⟩, ⟨24, [0]⟩, 0, 0, .running⟩]

/-! ### Witnesses: the hypotheses of each statement that has some -/

theorem witness_EdgeTakesOneOfThreeSteps :
    (∃ s : State, s.inputs = ⟨true, true, 0x30000001⟩ :: []) ∧
    (∃ s : State, s.inputs = ⟨false, true, 0x30000001⟩ :: []) ∧
    (∃ s : State, s.inputs = ⟨false, false, 0⟩ :: []) :=
  ⟨⟨⟨.lower, 0, false, _⟩, rfl⟩, ⟨⟨.lower, 0, false, _⟩, rfl⟩, ⟨⟨.lower, 0, false, _⟩, rfl⟩⟩

theorem witness_RunStartsInResetStateAndIdles : State.reset.inputs = [] := rfl

theorem witness_StepRunsTheDecodedCommand :
    ∃ s : State, s.inputs = ⟨false, true, 0x1000000A⟩ :: [] ∧ decode 0x1000000A = .ok (.enc 0x0A) :=
  ⟨⟨.lower, 0, false, _⟩, rfl, rfl⟩

theorem witness_ResponsesAreTheFoldOfExec :
    ∀ p ∈ [commandIn 0x30000001, idleIn, commandIn 0x100000AB], p.rst = false := by decide

theorem witness_CommandsOtherThanSetcaseDoNotInterfere :
    ∀ w ∈ [(0x100000AB : Word32), 0x20003167, 0x30000003], ∀ m, decode w ≠ .ok (.setcase m) := by
  intro w hw m
  simp only [List.mem_cons, List.not_mem_nil, or_false] at hw
  rcases hw with rfl | rfl | rfl <;> cases m <;> decide

theorem witness_AccessToCase : legal 0x30000003 = false := by decide

theorem witness_ResponseWordFormat :
    (∃ t, accept 0x1000000A (at_ .lower) = .next t ∧ rspStatus t.rsp ≠ 1) ∧
    (∃ t, accept 0x20003167 (at_ .lower) = .next t ∧ rspStatus t.rsp ≠ 0) :=
  ⟨⟨_, rfl, by decide⟩, ⟨_, rfl, by decide⟩⟩

theorem witness_ResponseFieldsReadBack : lutDec 0x66 = ⟨true, 0xF⟩ ∧ lutDec 0x41 = ⟨true, 0xA⟩ := by decide

theorem witness_StepKeepsRspWellShaped : State.safe ⟨.upper, 0x21020000, true, [commandIn 0x70000000]⟩ := by
  unfold State.safe; decide

theorem witness_DecodeAndEncodeAgree : decode 0x60000046 = .ok (.lutdec 0x46) := by decide

theorem witness_LegalIffDecodes :
    (∃ r ∈ encodingRows, r.accepts 0x2000FFFF = true) ∧ decode 0x2000FFFF = .ok (.dec 0xFF 0xFF) :=
  ⟨⟨⟨"DEC", 0x20000000, 0xFFFF0000⟩, by decide, by decide⟩, by decide⟩

theorem witness_IllegalWordsAreNamed : legal 0x7FFFFFFF = false ∧ legal 0x6FFFFFFF = false := by decide

theorem witness_LookupLaws :
    (∃ n k m, lutEnc n m = lutEnc k m) ∧ (lutDec 0x66).valid = true :=
  ⟨⟨0xF, 0xF, .upper, rfl⟩, by decide⟩

theorem witness_LutHalvesAreIndependent :
    (∃ i j : LutIn, i.encNib = j.encNib ∧ i.encUpper = j.encUpper ∧ i.decChar ≠ j.decChar ∧ i.encUpper = 0) ∧
    (∃ i j : LutIn, i.decChar = j.decChar ∧ i.encNib ≠ j.encNib ∧ i.encUpper = 1 ∧ (hexNibbleLut i).decValid = false) :=
  ⟨⟨⟨0xA, 0, 0x30⟩, ⟨0xA, 0, 0x67⟩, rfl, rfl, by decide, rfl⟩, ⟨⟨0xA, 1, 0x67⟩, ⟨0xB, 0, 0x67⟩, rfl, by decide, rfl, by decide⟩⟩

theorem witness_NopAnswers : cmdOp 0x00000001 = 0x0 ∧ (0x00000001 : Word32) ≠ 0x00000000 := by decide
theorem witness_EncAnswers : cmdOp 0x1100000A = 0x1 ∧ (0x1100000A : Word32) &&& 0xFFFFFF00 ≠ 0x10000000 := by decide
theorem witness_DecAnswers : cmdOp 0x20016130 = 0x2 ∧ (0x20016130 : Word32) &&& 0xFFFF0000 ≠ 0x20000000 := by decide
theorem witness_SetcaseAnswers :
    cmdOp 0x30000003 = 0x3 ∧ (0x30000003 : Word32) ≠ 0x30000000 ∧ (0x30000003 : Word32) ≠ 0x30000001 := by decide
theorem witness_GetcaseAnswers : cmdOp 0x40000001 = 0x4 ∧ (0x40000001 : Word32) ≠ 0x40000000 := by decide
theorem witness_LutencAnswers : cmdOp 0x50000010 = 0x5 ∧ (0x50000010 : Word32) &&& 0xFFFFFFF0 ≠ 0x50000000 := by decide
theorem witness_LutdecAnswers : cmdOp 0x60000130 = 0x6 ∧ (0x60000130 : Word32) &&& 0xFFFFFF00 ≠ 0x60000000 := by decide

theorem witness_EncLaws : ∃ b b' m, encPair b m = encPair b' m := ⟨0xA5, 0xA5, .upper, rfl⟩

theorem witness_InvalidCharCause :
    decode 0x20006731 = .ok (.dec 0x31 0x67) ∧ decode 0x600000FF = .ok (.lutdec 0xFF) := by decide

theorem witness_IllegalCmdCause : ¬ ∃ r ∈ encodingRows, (0x7FFFFFFF : Word32) &&& r.mask = r.pattern := by decide

theorem witness_ErrorsAreNotSticky :
    ∃ t, accept 0x20003078 (at_ .lower) = .next t ∧ rspStatus t.rsp ≠ 0 := ⟨_, rfl, by decide⟩

theorem witness_HexEncodeBufResult :
    (bufOverlap ⟨0, [1, 2]⟩ ⟨1, [0, 0, 0, 0]⟩ = true) ∧
    (bufOverlap ⟨0, [1, 2]⟩ ⟨2, [0, 0, 0]⟩ = false ∧ bufLen ⟨2, [0, 0, 0]⟩ < 2 * bufLen ⟨0, [1, 2]⟩) ∧
    (bufOverlap ⟨0, [1, 2]⟩ ⟨2, [0, 0, 0, 0]⟩ = false ∧ 2 * bufLen ⟨0, [1, 2]⟩ ≤ bufLen ⟨2, [0, 0, 0, 0]⟩) ∧
    (bufOverlap ⟨0, []⟩ ⟨0, []⟩ = false ∧ 2 * bufLen ⟨0, []⟩ ≤ bufLen ⟨0, []⟩ ∧ bufLen ⟨0, []⟩ = 0) := by decide

theorem witness_HexDecodeBufResult :
    (bufOverlap ⟨0, [0x30, 0x61]⟩ ⟨1, [0]⟩ = true) ∧
    (bufOverlap ⟨0, [0x30, 0x61]⟩ ⟨2, []⟩ = false ∧ bufLen ⟨2, []⟩ < bufLen ⟨0, [0x30, 0x61]⟩ / 2) ∧
    (bufOverlap ⟨0, [0x30, 0x61, 0x67]⟩ ⟨3, [0]⟩ = false ∧ bufLen ⟨0, [0x30, 0x61, 0x67]⟩ / 2 ≤ bufLen ⟨3, [0]⟩) ∧
    (bufOverlap ⟨0, [0x67]⟩ ⟨3, []⟩ = false ∧ bufLen ⟨0, [0x67]⟩ / 2 = 0) := by decide

theorem witness_DecodedTextPositions :
    (decodeText 0 [0x30, 0x61, 0x67]).invalid = none ∧
    (decodeText 0 [0x30, 0x30, 0x31, 0x67]).invalid = some 3 ∧
    (decodeText 0 [0x30, 0x61, 0x67]).bytes[0]? = some 0x0A := by decide

theorem witness_EncodedTextPositions : [(0x0A : Byte), 0xFF][1]? = some 0xFF := by decide

theorem witness_OverlapIsRefused : bufOverlap ⟨0, [1, 2]⟩ ⟨1, [3]⟩ = true := by decide

theorem witness_BufferTooSmallComesFirst :
    bufOverlap ⟨0, [0x7A, 0x7A]⟩ ⟨2, []⟩ = false ∧
    1 = (if OpKind.decode = .encode then 2 * bufLen ⟨0, [0x7A, 0x7A]⟩ else bufLen ⟨0, [0x7A, 0x7A]⟩ / 2) ∧
    bufLen ⟨2, []⟩ < 1 := by decide

theorem witness_NoIndexOutsideBuffers :
    (∀ op ∈ twoOps, opFits op) ∧ ∃ y', sysStep (.grant 1) ⟨at_ .lower, twoOps⟩ = .next y' :=
  ⟨by unfold opFits; decide, ⟨_, rfl⟩⟩

theorem witness_RoundTrip :
    bufOverlap ⟨0, [0xDE]⟩ ⟨1, [0, 0]⟩ = false ∧ 2 * bufLen ⟨0, [0xDE]⟩ ≤ bufLen ⟨1, [0, 0]⟩ ∧
    bufOverlap ⟨1, [0, 0]⟩ ⟨3, [0]⟩ = false ∧ bufLen ⟨0, [0xDE]⟩ ≤ bufLen ⟨3, [0]⟩ := by decide

theorem witness_DecodeIsCaseInvariant :
    ∃ fold : Byte → Byte, (fold = toUpperASCII ∨ fold = toLowerASCII) ∧
      bufOverlap ⟨0, [0x61, 0x46]⟩ ⟨2, [0]⟩ = false ∧ bufLen ⟨0, [0x61, 0x46]⟩ / 2 ≤ bufLen ⟨2, [0]⟩ :=
  ⟨toUpperASCII, .inl rfl, by decide, by decide⟩

theorem witness_EncodeConformsToAlphabet :
    bufOverlap ⟨0, [0xAB]⟩ ⟨1, [0, 0]⟩ = false ∧ 2 * bufLen ⟨0, [0xAB]⟩ ≤ bufLen ⟨1, [0, 0]⟩ := by decide

theorem witness_EncodeUsesCaseOfEachEdge :
    ∃ op : HostOp, op.kind = .encode ∧ op.status = .running ∧ op.src.bytes[op.idx]? = some 0xAB ∧
      2 * op.idx + 1 < bufLen op.dst :=
  ⟨⟨.encode, ⟨0, [0xAB]⟩, ⟨8, [0, 0]⟩, 0, 0, .running⟩, rfl, rfl, rfl, by decide⟩

/-- Events among which a call has too small a dst and another has room. -/
def mixedEvents : List SysEvent :=
  [.grant 1, .call .encode ⟨32, [0]⟩ ⟨40, [0]⟩, .edge (commandIn 0x40000000), .call .encode ⟨48, [0]⟩ ⟨56, [0, 0]⟩, .grant 3]

theorem witness_ConcurrentOperationsDoNotInterfere :
    opsDistinct twoOps ∧ (∀ e ∈ mixedEvents, keepsCase e = true) ∧
    (∃ y' : System, sysRun mixedEvents ⟨at_ .lower, twoOps⟩ = .next y') ∧
    (∃ before after, mixedEvents = before ++ .call .encode ⟨48, [0]⟩ ⟨56, [0, 0]⟩ :: after) ∧
    twoOps[1]? = some ⟨.decode, ⟨16, [0x30, 0x61]⟩, ⟨24, [0]⟩, 0, 0, .running⟩ :=
  ⟨by unfold opsDistinct; decide, by decide, ⟨_, rfl⟩,
    ⟨[.grant 1, .call .encode ⟨32, [0]⟩ ⟨40, [0]⟩, .edge (commandIn 0x40000000)], [.grant 3], rfl⟩, rfl⟩

theorem witness_TestablePropertiesHold :
    (bufOverlap ⟨0, [0xDE]⟩ ⟨1, [0, 0, 0]⟩ = false ∧ bufOverlap ⟨1, [0, 0, 0]⟩ ⟨0, [0]⟩ = false ∧
      2 * bufLen ⟨0, [0xDE]⟩ ≤ bufLen ⟨1, [0, 0, 0]⟩ ∧ bufLen ⟨0, [0xDE]⟩ ≤ bufLen ⟨0, [0]⟩) ∧
    (bufOverlap ⟨0, [0x61, 0x46, 0x67]⟩ ⟨3, [0]⟩ = false ∧ bufLen ⟨0, [0x61, 0x46, 0x67]⟩ / 2 ≤ bufLen ⟨3, [0]⟩ ∧
      ∀ c ∈ completePairs [0x61, 0x46, 0x67], c ∈ acceptedAlphabet) ∧
    (bufOverlap ⟨0, []⟩ ⟨0, []⟩ = false ∧ 2 * bufLen ⟨0, []⟩ ≤ bufLen ⟨0, []⟩) := by decide

theorem witness_AssembleTakesBackDisassembly : legal 0x30000001 = true := by decide

theorem witness_AssemblerWritesLegalWords :
    assemble (.word 0x90000000) = .ok 0x90000000 ∧ legal 0x90000000 = false ∧ 256 ≤ 256 ∧ 16 ≤ 16 ∧
    (256 ≤ 0 ∨ 256 ≤ 256) ∧ 2 ≤ 2 ∧ 2 ^ 32 ≤ 4294967296 := by decide

end Sys2Proof.Tests
end

/-!
### Commands

SUPPORT. What one command does, said once in terms of `transact` (43_control.md rule R124): `exec`, the accept step, the
step of the machine that takes a command, and the response a host captures from it.
-/
namespace Sys2Proof.Machine

/-- The state after the command word `w`, from rule R124: CASE and RSP as `transact` gives them, RSP_VALID = 1. -/
def afterCommand (w : Word32) (s : State) : State :=
  respond (transact s.caseMode w).2 (setCaseMode (transact s.caseMode w).1 s)

@[simp] theorem afterCommand_caseMode (w : Word32) (s : State) :
    (afterCommand w s).caseMode = (transact s.caseMode w).1 := rfl
@[simp] theorem afterCommand_rsp (w : Word32) (s : State) :
    (afterCommand w s).rsp = (transact s.caseMode w).2 := rfl
@[simp] theorem afterCommand_rspValid (w : Word32) (s : State) : (afterCommand w s).rspValid = true := rfl
@[simp] theorem afterCommand_inputs (w : Word32) (s : State) : (afterCommand w s).inputs = s.inputs := rfl
@[simp] theorem capture_afterCommand (w : Word32) (s : State) :
    capture (afterCommand w s) = some (transact s.caseMode w).2 := rfl

/-- A command reads nothing of the inputs to come. -/
theorem afterCommand_withInputs (w : Word32) (s : State) (ps : List PortIn) :
    afterCommand w { s with inputs := ps } = { afterCommand w s with inputs := ps } := rfl

/-- The meaning of a decoded command is rule R124's. -/
theorem exec_of_decode {w : Word32} {i : Instr} (h : decode w = .ok i) (s : State) :
    exec i s = .next (afterCommand w s) := by
  simp only [afterCommand, transact, h]
  cases i with
  | nop       => rfl
  | enc b     =>
    simp only [exec, execEnc, encPair_char0, encPair_char1]
    rfl
  | dec c0 c1 =>
    by_cases hok : ((lutDec c0).valid && (lutDec c1).valid) = true
    · simp only [exec, execDec, decPair_ok, hok, if_true, decPair_byteOut c0 c1 hok]
      rfl
    · simp only [exec, execDec, decPair_ok, hok]
      rfl
  | setcase m => rfl
  | getcase   => rfl
  | lutenc n  => rfl
  | lutdec ch =>
    by_cases hv : (lutDec ch).valid = true
    · simp only [exec, execLutdec, hv, if_true]
      rfl
    · simp only [exec, execLutdec, hv]
      rfl

/-- Every word on the command port is answered as rule R124 says, the illegal ones too. -/
theorem accept_eq_afterCommand (w : Word32) (s : State) : accept w s = .next (afterCommand w s) := by
  cases h : decode w with
  | ok i    => rw [accept_of_decode h, exec_of_decode h]
  | error e => rw [accept_of_illegal h, afterCommand, transact, h]; rfl

/-- A step with a command driven next accepts it and takes its entry off the inputs. -/
theorem step_command (s : State) (w : Word32) (rest : List PortIn) :
    step { s with inputs := commandIn w :: rest } = .next (afterCommand w { s with inputs := rest }) :=
  accept_eq_afterCommand w { s with inputs := rest }

/-- An edge that accepts a command gives the host that command's response, and the later edges give theirs. -/
theorem responses_succ_command (k : Nat) (s : State) (w : Word32) (rest : List PortIn) :
    responses (k + 1) { s with inputs := commandIn w :: rest } =
      (transact s.caseMode w).2 :: responses k (afterCommand w { s with inputs := rest }) := by
  simp [responses, step_command]

/-- One command an edge gives one response a command. -/
theorem length_responses_programInputs (ws : List Word32) (s : State) (rest : List PortIn) :
    (responses ws.length { s with inputs := programInputs ws ++ rest }).length = ws.length := by
  induction ws generalizing s with
  | nil => rfl
  | cons w ws ih =>
    calc (responses (ws.length + 1) { s with inputs := commandIn w :: (programInputs ws ++ rest) }).length
        = (responses ws.length { afterCommand w s with inputs := programInputs ws ++ rest }).length + 1 := by
          rw [responses_succ_command, List.length_cons, afterCommand_withInputs]
      _ = ws.length + 1 := by rw [ih]

end Sys2Proof.Machine

/-!
### Alphabets

SUPPORT. The alphabets of 00_scope.md rule R12 and the reverse lookup of 40_lut.md rule R83 speak of the same characters.
-/
namespace Sys2Proof.Machine

/-- A character of one of the three ranges a hexadecimal digit can stand in. -/
def isHexDigit (ch : Byte) : Prop :=
  (0x30 ≤ ch ∧ ch ≤ 0x39) ∨ (0x41 ≤ ch ∧ ch ≤ 0x46) ∨ (0x61 ≤ ch ∧ ch ≤ 0x66)

theorem lutDec_valid_iff_isHexDigit (ch : Byte) : (lutDec ch).valid = true ↔ isHexDigit ch := by
  unfold lutDec isHexDigit
  split_ifs with digit upper lower
  · exact iff_of_true rfl (.inl digit)
  · exact iff_of_true rfl (.inr (.inl upper))
  · exact iff_of_true rfl (.inr (.inr lower))
  · exact iff_of_false not_false (not_or.2 ⟨digit, not_or.2 ⟨upper, lower⟩⟩)

/-- Rule R12: the accepted alphabet is the union of the two. -/
theorem mem_acceptedAlphabet (ch : Byte) : ch ∈ acceptedAlphabet ↔ ch ∈ lowerAlphabet ∨ ch ∈ upperAlphabet := by
  rw [acceptedAlphabet, List.mem_dedup, List.mem_append]

theorem mem_acceptedAlphabet_iff_isHexDigit (ch : Byte) : ch ∈ acceptedAlphabet ↔ isHexDigit ch := by
  rw [mem_acceptedAlphabet]
  simp only [lowerAlphabet, upperAlphabet, isHexDigit, List.mem_cons, List.not_mem_nil, or_false]
  bv_omega

theorem lutDec_valid_iff_mem_acceptedAlphabet (ch : Byte) : (lutDec ch).valid = true ↔ ch ∈ acceptedAlphabet :=
  (lutDec_valid_iff_isHexDigit ch).trans (mem_acceptedAlphabet_iff_isHexDigit ch).symm

end Sys2Proof.Machine

/-!
### The statements of 00_scope.md

SUPPORT. The statements of 00_scope.md: rule R6's fixed parameters and rule R12's alphabets.
-/
namespace Sys2Proof
open Machine

/-- Settles O45: the sizes are read off the tables; throughput is one response a command over any list of words, by
induction on it; latency is one accepting step. -/
theorem fixedParameters : Obligations.FixedParameters := by
  unfold Obligations.FixedParameters
  refine ⟨?forward, rfl, ?modes, rfl, ?throughput, ?latency⟩
  case forward => intro m; cases m <;> rfl
  case modes => intro m; cases m <;> simp
  case throughput =>
    intro s ws rest
    rw [length_responses_programInputs, Config.throughput, Nat.one_mul]
  case latency =>
    intro s w rest
    refine ⟨afterCommand w { s with inputs := rest }, ?_, capture_afterCommand w _⟩
    rw [Config.latency, edges_succ, step_command, andThen_next, edges_zero]

/-- Settles O26: the reverse lookup's three ranges hold exactly the characters of the two alphabets. -/
theorem validMeansAcceptedAlphabet : Obligations.ValidMeansAcceptedAlphabet := by
  unfold Obligations.ValidMeansAcceptedAlphabet
  exact ⟨by decide, List.nodup_dedup _, rfl, rfl, fun ch =>
    ⟨mem_acceptedAlphabet ch, lutDec_valid_iff_mem_acceptedAlphabet ch⟩⟩

end Sys2Proof

/-!
### Command fields

SUPPORT. The fields of a command word and the lanes of its operand half as numbers (30_encoding.md rule R60).
-/
namespace Sys2Proof.Machine

theorem toNat_cmdOp (w : Word32) : (cmdOp w).toNat = w.toNat / 2 ^ 28 := by
  simp only [cmdOp, BitVec.extractLsb'_toNat, Nat.shiftRight_eq_div_pow]
  omega

theorem toNat_cmdA (w : Word32) : (cmdA w).toNat = w.toNat % 2 ^ 8 := by
  simp [cmdA, BitVec.extractLsb'_toNat]

theorem toNat_cmdB (w : Word32) : (cmdB w).toNat = w.toNat / 2 ^ 8 % 2 ^ 8 := by
  simp [cmdB, BitVec.extractLsb'_toNat, Nat.shiftRight_eq_div_pow]

theorem toNat_cmdNibble (w : Word32) : (cmdNibble w).toNat = w.toNat % 2 ^ 4 := by
  simp [cmdNibble, BitVec.extractLsb'_toNat]

theorem toNat_cmdCase (w : Word32) : (cmdCase w).toNat = w.toNat % 2 := by
  simp [cmdCase, BitVec.extractLsb'_toNat]

theorem toNat_zext16 {n : Nat} (h : n ≤ 16) (v : BitVec n) : (zext16 v).toNat = v.toNat := by
  rw [zext16, BitVec.toNat_setWidth_of_le h]

/-- `{hi, lo}` in a word with room for both: the high field stands above the `k` bits of the low one. -/
theorem toNat_shiftLeft_or {a b n k : Nat} (hi : BitVec a) (lo : BitVec b) (hlo : lo.toNat < 2 ^ k)
    (hroom : hi.toNat * 2 ^ k + lo.toNat < 2 ^ n) :
    (hi.setWidth n <<< k ||| lo.setWidth n).toNat = hi.toNat * 2 ^ k + lo.toNat := by
  have hhi : hi.toNat ≤ hi.toNat * 2 ^ k := Nat.le_mul_of_pos_right _ (by positivity)
  have hor := Nat.shiftLeft_add_eq_or_of_lt hlo hi.toNat
  simp only [BitVec.toNat_or, BitVec.toNat_shiftLeft, BitVec.toNat_setWidth]
  rw [Nat.shiftLeft_eq] at hor ⊢
  rw [Nat.mod_eq_of_lt (show hi.toNat < 2 ^ n by omega), Nat.mod_eq_of_lt (show lo.toNat < 2 ^ n by omega),
    Nat.mod_eq_of_lt (show hi.toNat * 2 ^ k < 2 ^ n by omega), ← hor]

theorem toNat_lanes (l1 l0 : Byte) : (lanes l1 l0).toNat = l1.toNat * 2 ^ 8 + l0.toNat :=
  toNat_shiftLeft_or l1 l0 l0.isLt (by omega)

end Sys2Proof.Machine

/-!
### Words

SUPPORT. What a word that decodes looks like (30_encoding.md rules R60 to R67): it is the encoding of its command, so the
table of rule R64 accepts it, and a word the table does not accept is illegal.
-/
namespace Sys2Proof
open Machine

/-- Rule R60: OP stands above the operand half. -/
theorem toNat_encode (i : Instr) : (encode i).toNat = (opcode i).toNat * 2 ^ 28 + (operandBits i).toNat :=
  toNat_shiftLeft_or (opcode i) (operandBits i) (by omega) (by omega)

/-- The number of operand bits of a command; every bit between them and OP must be zero (rule R64). -/
def operandWidth : Instr → Nat
  | .nop       => 0
  | .enc _     => 8
  | .dec _ _   => 16
  | .setcase _ => 1
  | .getcase   => 0
  | .lutenc _  => 4
  | .lutdec _  => 8

theorem operandWidth_le (i : Instr) : operandWidth i ≤ 28 := by
  cases i <;> simp [operandWidth]

/-- One line of rule R67 answers its command only with the must-be-zero bits zero, so the fields of the word are the
command's when OP and the operand bits are. -/
theorem fields_of_zeroFrom {n : Nat} {w : Word32} {name : String} {i j : Instr} (h : zeroFrom n w name i = .ok j)
    (hop : (cmdOp w).toNat = (opcode i).toNat) (hn : operandWidth i = n)
    (hbits : (operandBits i).toNat = w.toNat % 2 ^ n) :
    (cmdOp w).toNat = (opcode j).toNat ∧ cmdFrom w (operandWidth j) = 0 ∧
      (operandBits j).toNat = w.toNat % 2 ^ operandWidth j := by
  subst hn
  unfold zeroFrom at h
  split at h
  · cases h; exact ⟨hop, ‹_›, hbits⟩
  · cases h

/-- A word that decodes, field by field: its OP, its must-be-zero bits and its operand bits. -/
theorem fields_of_decode {w : Word32} {i : Instr} (h : decode w = .ok i) :
    (cmdOp w).toNat = (opcode i).toNat ∧ cmdFrom w (operandWidth i) = 0 ∧
      (operandBits i).toNat = w.toNat % 2 ^ operandWidth i := by
  unfold decode at h
  split at h
  case h_1 hop => exact fields_of_zeroFrom h hop rfl (Nat.mod_one _).symm
  case h_2 hop =>
    refine fields_of_zeroFrom h hop rfl ?_
    simp [operandBits, toNat_lanes, toNat_cmdA]
  case h_3 hop =>
    refine fields_of_zeroFrom h hop rfl ?_
    simp only [operandBits, toNat_lanes, toNat_cmdA, toNat_cmdB]
    omega
  case h_4 hop =>
    refine fields_of_zeroFrom h hop rfl ?_
    simp [operandBits, toNat_zext16, toNat_cmdCase]
  case h_5 hop => exact fields_of_zeroFrom h hop rfl (Nat.mod_one _).symm
  case h_6 hop =>
    refine fields_of_zeroFrom h hop rfl ?_
    simp [operandBits, toNat_zext16, toNat_cmdNibble]
  case h_7 hop =>
    refine fields_of_zeroFrom h hop rfl ?_
    simp [operandBits, toNat_lanes, toNat_cmdA]
  case h_8 => cases h

/-- Rule R67: a word that decodes is the encoding of its command. -/
theorem encode_of_decode {w : Word32} {i : Instr} (h : decode w = .ok i) : encode i = w := by
  obtain ⟨hop, hz, hbits⟩ := fields_of_decode h
  have hlow : w.toNat % 2 ^ 28 = w.toNat % 2 ^ operandWidth i := by
    have hlt : w.toNat % 2 ^ 28 < 2 ^ operandWidth i := Nat.lt_of_div_eq_zero (by positivity) hz
    rw [← Nat.mod_eq_of_lt hlt, Nat.mod_mod_of_dvd _ (pow_dvd_pow 2 (operandWidth_le i))]
  apply BitVec.eq_of_toNat_eq
  rw [toNat_encode, hbits, ← hop, toNat_cmdOp, ← hlow]
  omega

/-- The word of every command lies in its row of rule R64. -/
theorem encode_tableRow (i : Instr) : Laws.TableRow.Statement i := by
  cases i with
  | nop       => exact Laws.TableRow.nop
  | enc b     => exact Laws.TableRow.enc b
  | dec c0 c1 => exact Laws.TableRow.dec c0 c1
  | setcase m => exact Laws.TableRow.setcase m
  | getcase   => exact Laws.TableRow.getcase
  | lutenc n  => exact Laws.TableRow.lutenc n
  | lutdec ch => exact Laws.TableRow.lutdec ch

theorem encodingRow_mem (i : Instr) : encodingRow i ∈ encodingRows := by
  cases i <;> simp [encodingRow, encodingRows]

theorem legal_encode (i : Instr) : legal (encode i) = true :=
  List.any_eq_true.2 ⟨encodingRow i, encodingRow_mem i, beq_iff_eq.2 (encode_tableRow i)⟩

/-- A word that no row of rule R64 accepts decodes to no command. -/
theorem decode_of_not_legal {w : Word32} (h : legal w = false) : ∃ e, decode w = .error e := by
  cases hd : decode w with
  | error e => exact ⟨e, rfl⟩
  | ok i =>
    have hlegal : legal w = true := encode_of_decode hd ▸ legal_encode i
    rw [h] at hlegal
    cases hlegal

end Sys2Proof

/-!
### Edges

SUPPORT. What one edge can do, said once (43_control.md rule R125), and the one way a command changes CASE.
-/
namespace Sys2Proof.Machine

/-- A step is the reset, the accept or the idle step, by the ports it samples. -/
theorem step_cases (s : State) :
    ((sample s).rst = true ∧ step s = .next (resetEdge (afterSample s))) ∨
    ((sample s).rst = false ∧ (sample s).cmdValid = true ∧
      step s = .next (afterCommand (sample s).cmd (afterSample s))) ∨
    ((sample s).rst = false ∧ (sample s).cmdValid = false ∧ step s = .next (idleEdge (afterSample s))) := by
  simp only [step, clockEdge, edge, accept_eq_afterCommand]
  cases (sample s).rst with
  | true  => exact .inl ⟨rfl, rfl⟩
  | false =>
    cases (sample s).cmdValid with
    | true  => exact .inr (.inl ⟨rfl, rfl, rfl⟩)
    | false => exact .inr (.inr ⟨rfl, rfl, rfl⟩)

/-- Rule R124: a word leaves CASE, or is a SETCASE and sets it to its operand. -/
theorem transact_caseMode (c : CaseMode) (w : Word32) :
    (transact c w).1 = c ∨ ∃ m, decode w = .ok (.setcase m) ∧ (transact c w).1 = m := by
  unfold transact
  split
  case h_4 m h => exact .inr ⟨m, h, rfl⟩
  case h_3 => split <;> exact .inl rfl
  case h_7 => split <;> exact .inl rfl
  all_goals exact .inl rfl

end Sys2Proof.Machine

/-!
### Responses

SUPPORT. What a command's response depends on: its OP is the command's, and DEC and LUTDEC read their characters alone.
-/
namespace Sys2Proof.Machine

@[simp] theorem rspOp_rspOk (op : BitVec 4) (d : Data) : rspOp (rspOk op d) = op := rspOp_rspWord op .ok 0 d
@[simp] theorem rspData_rspOk (op : BitVec 4) (d : Data) : rspData (rspOk op d) = d := rspData_rspWord op .ok 0 d
@[simp] theorem rspOp_rspInvalidChar (op : BitVec 4) (em : BitVec 2) : rspOp (rspInvalidChar op em) = op :=
  rspOp_rspWord op .invalidChar em 0

/-- An OK response tells its DATA. -/
theorem rspOk_ne {op : BitVec 4} {d d' : Data} (h : d ≠ d') : rspOk op d ≠ rspOk op d' := fun heq =>
  h (by rw [← rspData_rspOk op d, heq, rspData_rspOk])

theorem exec_dec_responds (c0 c1 : Byte) :
    ∃ r, rspOp r = 0x2 ∧ ∀ s, exec (.dec c0 c1) s = .next (respond r s) := by
  by_cases hok : (decPair c0 c1).ok = true
  · exact ⟨_, rspOp_rspOk 0x2 _, fun s => if_pos hok⟩
  · exact ⟨_, rspOp_rspInvalidChar 0x2 _, fun s => if_neg hok⟩

theorem exec_lutdec_responds (ch : Byte) :
    ∃ r, rspOp r = 0x6 ∧ ∀ s, exec (.lutdec ch) s = .next (respond r s) := by
  by_cases hv : (lutDec ch).valid = true
  · exact ⟨_, rspOp_rspOk 0x6 _, fun s => if_pos hv⟩
  · exact ⟨_, rspOp_rspInvalidChar 0x6 _, fun s => if_neg hv⟩

/-- The forward table of rule R81 holds what the forward lookup of rule R80 answers. -/
theorem forwardTable_getElem? (m : CaseMode) (n : Nibble) : (forwardTable m)[n.toNat]? = some (lutEnc n m) := by
  cases m <;> revert n <;> decide

/-- Rule R83: the nibble of an invalid character is 0. -/
theorem lutDec_nib_of_invalid {ch : Byte} (h : (lutDec ch).valid = false) : (lutDec ch).nib = 0 := by
  unfold lutDec at h ⊢
  split_ifs at h ⊢
  rfl

end Sys2Proof.Machine

/-!
### The statements of 10_state.md

SUPPORT. The statements of 10_state.md: the frame of every command, who reads and writes CASE (rule R22), the response
register (rule R23), the two halves of the lookup (rule R28) and the reset values (rule R31).
-/
namespace Sys2Proof
open Machine

/-- Settles O10: by cases on the command; only DEC and LUTDEC choose between two responses. -/
theorem execAnswersAndFrame : Obligations.ExecAnswersAndFrame := by
  unfold Obligations.ExecAnswersAndFrame
  intro i s
  cases i with
  | nop       => exact ⟨_, rfl, rspOp_rspOk 0x0 _⟩
  | enc b     => exact ⟨_, rfl, rspOp_rspOk 0x1 _⟩
  | dec c0 c1 =>
    obtain ⟨r, hop, hexec⟩ := exec_dec_responds c0 c1
    exact ⟨r, hexec s, hop⟩
  | setcase m => exact ⟨_, rfl, rspOp_rspOk 0x3 _⟩
  | getcase   => exact ⟨_, rfl, rspOp_rspOk 0x4 _⟩
  | lutenc n  => exact ⟨_, rfl, rspOp_rspOk 0x5 _⟩
  | lutdec ch =>
    obtain ⟨r, hop, hexec⟩ := exec_lutdec_responds ch
    exact ⟨r, hexec s, hop⟩

/-- Settles O11: the writers by the three steps an edge can take, the commands that do not read CASE by what their
responses are built from, and the ones that do by 0xA, GETCASE by the bit itself. -/
theorem accessToCase : Obligations.AccessToCase := by
  unfold Obligations.AccessToCase
  refine ⟨?writers, ?decoders, ?others, ?readers, ?illegal, fun s m => ⟨_, rfl, rfl⟩⟩
  case writers =>
    intro s
    obtain ⟨hrst, hstep⟩ | ⟨hrst, hvalid, hstep⟩ | ⟨-, -, hstep⟩ := step_cases s
    · exact ⟨_, hstep, .inr (.inl ⟨hrst, rfl⟩)⟩
    · refine ⟨_, hstep, ?_⟩
      obtain hkeep | ⟨m, hdecode, hset⟩ := transact_caseMode s.caseMode (sample s).cmd
      · exact .inl hkeep
      · exact .inr (.inr ⟨m, hrst, hvalid, hdecode, hset⟩)
    · exact ⟨_, hstep, .inl rfl⟩
  case decoders =>
    intro s c c0 c1 ch
    obtain ⟨r, -, hdec⟩ := exec_dec_responds c0 c1
    obtain ⟨r', -, hlutdec⟩ := exec_lutdec_responds ch
    exact ⟨⟨_, _, hdec s, hdec _, rfl⟩, ⟨_, _, hlutdec s, hlutdec _, rfl⟩⟩
  case others =>
    intro s c
    refine ⟨⟨_, _, rfl, rfl, rfl⟩, fun m => ⟨_, rfl, rfl⟩, fun w hw => ?_⟩
    obtain ⟨e, he⟩ := decode_of_not_legal hw
    exact ⟨_, _, accept_of_illegal he s, accept_of_illegal he _, rfl⟩
  case readers =>
    intro s
    have henc : lanes (encPair 0x0A .lower).char1 (encPair 0x0A .lower).char0 ≠
        lanes (encPair 0x0A .upper).char1 (encPair 0x0A .upper).char0 := by decide
    have hlutenc : zext16 (lutEnc 0xA .lower) ≠ zext16 (lutEnc 0xA .upper) := by decide
    have hgetcase : zext16 CaseMode.lower.bit ≠ zext16 CaseMode.upper.bit := by decide
    exact ⟨⟨0x0A, _, _, rfl, rfl, rspOk_ne henc⟩, ⟨0xA, _, _, rfl, rfl, rspOk_ne hlutenc⟩,
      ⟨_, _, rfl, rfl, rspOk_ne hgetcase⟩⟩
  case illegal =>
    intro s w hw
    obtain ⟨e, he⟩ := decode_of_not_legal hw
    exact ⟨_, accept_of_illegal he s, rfl⟩

/-- Settles O12: the step with an edge's inputs presented is that edge, and a command reads CASE alone. -/
theorem responseRegister : Obligations.ResponseRegister := by
  unfold Obligations.ResponseRegister
  intro s w
  have hcommand (u : State) : step (present (commandIn w) u) = .next (afterCommand w u) := accept_eq_afterCommand w u
  refine ⟨⟨_, hcommand s, rfl, rfl⟩, ⟨_, edge_idleIn s, rfl, rfl⟩, fun v => ⟨_, edge_reset v w s, rfl, rfl⟩,
    rfl, rfl, fun r v => ?_⟩
  rw [hcommand, hcommand]
  rfl

/-- Settles O1: a reset edge, then the forward table entry by entry, and LUTDEC, which reads no state. -/
theorem resetEdgeGivesResetValues : Obligations.ResetEdgeGivesResetValues := by
  unfold Obligations.ResetEdgeGivesResetValues
  intro s v w
  refine ⟨resetEdge s, edge_reset v w s, rfl, rfl, rfl, rfl, rfl, fun n m => ⟨_, rfl, ?_⟩, fun ch => ?_⟩
  · rw [forwardTable_getElem?, respond_rsp, rspData_rspOk]
    rfl
  · obtain ⟨r, -, hexec⟩ := exec_lutdec_responds ch
    exact ⟨_, _, hexec _, hexec s, rfl⟩

/-- Settles O3: past the end of the inputs an edge samples the idle ports. -/
theorem runStartsInResetStateAndIdles : Obligations.RunStartsInResetStateAndIdles := by
  unfold Obligations.RunStartsInResetStateAndIdles
  refine ⟨rfl, fun s hs => ?_⟩
  have hsample : sample s = idleIn := by rw [sample, hs]
  have hafter : afterSample s = s := by rw [afterSample, hs, List.tail_nil, ← hs]
  rw [step, clockEdge, hsample, hafter, edge_idleIn, idleEdge]

/-- Settles O16: RSP = 0 reads as the response of a NOP. -/
theorem resetIsWellShaped : Obligations.ResetIsWellShaped := by
  unfold Obligations.ResetIsWellShaped State.safe
  decide

/-- Settles O28: each output is its lookup of its own half's inputs. -/
theorem lutHalvesAreIndependent : Obligations.LutHalvesAreIndependent := by
  unfold Obligations.LutHalvesAreIndependent
  intro i j
  refine ⟨fun hnib hupper => ?_, fun hchar => ?_, fun hlower => ?_, fun hupper => ?_, rfl, lutDec_nib_of_invalid⟩
  · rw [hexNibbleLut_encChar, hexNibbleLut_encChar, hnib, hupper]
  · rw [hexNibbleLut_decValid, hexNibbleLut_decNib, hchar]
    exact ⟨rfl, rfl⟩
  · rw [hexNibbleLut_encChar, hlower]
    rfl
  · rw [hexNibbleLut_encChar, hupper]
    rfl

end Sys2Proof

/-!
### Words of commands

SUPPORT. The decoder takes back the word of every command (30_encoding.md rule R67).
-/
namespace Sys2Proof
open Machine

theorem cmdOp_encode (i : Instr) : cmdOp (encode i) = opcode i := by
  apply BitVec.eq_of_toNat_eq
  rw [toNat_cmdOp, toNat_encode]
  omega

/-- A field that lies in the operand half of a command's word holds those bits of its operands. -/
theorem encode_extractLsb' (i : Instr) {a n : Nat} (h : a + n ≤ 16) :
    (encode i).extractLsb' a n = (operandBits i).extractLsb' a n := by
  ext k hk
  have hbelow : a + k < 28 := by omega
  have hword : a + k < 32 := by omega
  simp [encode, hbelow, hword]

theorem zext16_extractLsb' {n : Nat} (h : n ≤ 16) (v : BitVec n) : (zext16 v).extractLsb' 0 n = v := by
  apply BitVec.eq_of_toNat_eq
  simp [toNat_zext16 h]

theorem operandBits_lt (i : Instr) : (operandBits i).toNat < 2 ^ operandWidth i := by
  cases i with
  | nop       => exact Nat.one_pos
  | enc b     => simpa [operandBits, operandWidth, toNat_lanes] using b.isLt
  | dec c0 c1 => exact (operandBits (.dec c0 c1)).isLt
  | setcase m => simpa [operandBits, operandWidth, toNat_zext16] using m.bit.isLt
  | getcase   => exact Nat.one_pos
  | lutenc n  => simpa [operandBits, operandWidth, toNat_zext16] using n.isLt
  | lutdec ch => simpa [operandBits, operandWidth, toNat_lanes] using ch.isLt

/-- Rule R64: the bits between a command's operand and its OP are zero. -/
theorem cmdFrom_encode (i : Instr) : cmdFrom (encode i) (operandWidth i) = 0 := by
  rw [cmdFrom, toNat_encode, Nat.mul_add_mod_of_lt (by omega), Nat.div_eq_of_lt (operandBits_lt i)]

/-- The line of rule R67 for a command, on that command's own word. -/
theorem zeroFrom_encode (i : Instr) (name : String) {j : Instr} (h : j = i) :
    zeroFrom (operandWidth i) (encode i) name j = .ok i := by
  rw [h]
  exact if_pos (cmdFrom_encode i)

theorem decode_encode (i : Instr) : decode (encode i) = .ok i := by
  have hA : cmdA (encode i) = lane0 (operandBits i) := encode_extractLsb' i (by omega)
  have hB : cmdB (encode i) = lane1 (operandBits i) := encode_extractLsb' i (by omega)
  rw [decode, cmdOp_encode]
  cases i with
  | nop       => exact zeroFrom_encode .nop _ rfl
  | enc b     => exact zeroFrom_encode (.enc b) _ (by rw [hA, operandBits, lane0_lanes])
  | dec c0 c1 => exact zeroFrom_encode (.dec c0 c1) _ (by rw [hA, hB, operandBits, lane0_lanes, lane1_lanes])
  | setcase m =>
    have hcase : cmdCase (encode (.setcase m)) = m.bit :=
      (encode_extractLsb' _ (by omega)).trans (zext16_extractLsb' (by omega) m.bit)
    exact zeroFrom_encode (.setcase m) _ (by rw [hcase, CaseMode.ofBit_bit])
  | getcase   => exact zeroFrom_encode .getcase _ rfl
  | lutenc n  =>
    have hnibble : cmdNibble (encode (.lutenc n)) = n :=
      (encode_extractLsb' _ (by omega)).trans (zext16_extractLsb' (by omega) n)
    exact zeroFrom_encode (.lutenc n) _ (by rw [hnibble])
  | lutdec ch => exact zeroFrom_encode (.lutdec ch) _ (by rw [hA, operandBits, lane0_lanes])

end Sys2Proof

/-!
### Streams of commands

SUPPORT. What `transact` keeps from word to word (20_memory.md rules R46 and R51).
-/
namespace Sys2Proof.Machine

/-- Rule R51: only SETCASE changes CASE. -/
theorem transact_keeps_caseMode {w : Word32} (h : ∀ m, decode w ≠ .ok (.setcase m)) (c : CaseMode) :
    (transact c w).1 = c := by
  obtain hkeep | ⟨m, hm, -⟩ := transact_caseMode c w
  · exact hkeep
  · exact absurd hm (h m)

theorem transactAll_cons (c : CaseMode) (w : Word32) (ws : List Word32) :
    transactAll c (w :: ws) =
      ((transactAll (transact c w).1 ws).1, (transact c w).2 :: (transactAll (transact c w).1 ws).2) := rfl

/-- Rule R46: under the CASE a word leaves, the same word does the same again. -/
theorem transact_again (c : CaseMode) (w : Word32) : transact (transact c w).1 w = transact c w := by
  obtain hkeep | ⟨m, hm, -⟩ := transact_caseMode c w
  · rw [hkeep]
  · simp only [transact, hm]

theorem afterCommand_again (w : Word32) (s : State) : afterCommand w (afterCommand w s) = afterCommand w s := by
  rw [afterCommand, afterCommand_caseMode, transact_again]
  rfl

end Sys2Proof.Machine

/-!
### Texts

SUPPORT. The text of a byte sequence, byte by byte (20_memory.md rule R42).
-/
namespace Sys2Proof.Machine

@[simp] theorem encodeText_nil (m : CaseMode) : encodeText m [] = [] := rfl

@[simp] theorem encodeText_cons (m : CaseMode) (b : Byte) (bs : List Byte) :
    encodeText m (b :: bs) = lutEnc (highNibble b) m :: lutEnc (lowNibble b) m :: encodeText m bs := rfl

@[simp] theorem length_encodeText (m : CaseMode) (bs : List Byte) : (encodeText m bs).length = 2 * bs.length := by
  induction bs with
  | nil          => rfl
  | cons b bs ih => rw [encodeText_cons, List.length_cons, List.length_cons, List.length_cons, ih]; omega

theorem encodeText_getElem? (m : CaseMode) {bs : List Byte} {i : Nat} {b : Byte} (h : bs[i]? = some b) :
    (encodeText m bs)[2 * i]? = some (lutEnc (highNibble b) m) ∧
      (encodeText m bs)[2 * i + 1]? = some (lutEnc (lowNibble b) m) := by
  induction bs generalizing i with
  | nil          => cases h
  | cons a bs ih =>
    cases i with
    | zero   => cases h; exact ⟨rfl, rfl⟩
    | succ i => exact ih h

end Sys2Proof.Machine

/-!
### Edges of operations

SUPPORT. What one edge granted to a host-level operation does (44_buffer_ops.md rules R142 and R143): the command it
presents, its use of the response, and that neither leaves the buffers while `opFits` holds.
-/
namespace Sys2Proof.Machine

theorem bufRead_of_getElem? {b : Buffer} {i : Nat} {v : Byte} (h : b.bytes[i]? = some v) : bufRead b i = .next v := by
  rw [bufRead, h]

@[simp] theorem opSettle_src (op : HostOp) : (opSettle op).src = op.src := (opSettle_keeps op).src

@[simp] theorem opSettle_dst (op : HostOp) : (opSettle op).dst = op.dst := by
  unfold opSettle; split <;> rfl

@[simp] theorem opSettle_issued (op : HostOp) : (opSettle op).issued = op.issued := by
  unfold opSettle; split <;> rfl

theorem opCommand_encode {op : HostOp} {b : Byte} (hk : op.kind = .encode) (hb : op.src.bytes[op.idx]? = some b) :
    opCommand op = .next (encode (.enc b)) := by
  rw [opCommand, hk, bufRead_of_getElem? hb]
  rfl

theorem opCommand_decode {op : HostOp} {c0 c1 : Byte} (hk : op.kind = .decode)
    (h0 : op.src.bytes[2 * op.idx]? = some c0) (h1 : op.src.bytes[2 * op.idx + 1]? = some c1) :
    opCommand op = .next (encode (.dec c0 c1)) := by
  rw [opCommand, hk, bufRead_of_getElem? h0, bufRead_of_getElem? h1]
  rfl

/-- While an element is left, its command reads inside the source. -/
theorem opCommand_next {op : HostOp} (h : op.idx < opUnits op.kind (bufLen op.src)) : ∃ w, opCommand op = .next w := by
  cases hk : op.kind with
  | encode =>
    rw [hk, opUnits, Config.bytesPerCmd, Nat.div_one] at h
    exact ⟨_, opCommand_encode hk (List.getElem?_eq_getElem h)⟩
  | decode =>
    rw [hk, opUnits, Config.charsPerByte] at h
    exact ⟨_, opCommand_decode hk (List.getElem?_eq_getElem (show 2 * op.idx < bufLen op.src by omega))
      (List.getElem?_eq_getElem (show 2 * op.idx + 1 < bufLen op.src by omega))⟩

/-- Encode's loop step, where dst has room for both characters. -/
theorem takeEncode_inside {op : HostOp} (r : Word32) (h : 2 * op.idx + 1 < bufLen op.dst) :
    takeEncode op r = .next (opSettle { op with
      dst := ⟨op.dst.base,
        (op.dst.bytes.set (2 * op.idx) (lane0 (rspData r))).set (2 * op.idx + 1) (lane1 (rspData r))⟩
      idx := op.idx + 1
      issued := op.issued + 1 }) := by
  have h0 := bufWrite_inside (lane0 (rspData r)) (show 2 * op.idx < bufLen op.dst by omega)
  have h1 := bufWrite_inside (lane1 (rspData r)) ((bufWrite_len h0).symm ▸ h)
  rw [takeEncode, h0, andThen_next, h1, andThen_next]

/-- Decode's loop step on any response but INVALID_CHAR, where dst has room for the byte. -/
theorem takeDecode_inside {op : HostOp} {r : Word32} (hr : rspStatus r ≠ Status.invalidChar.code)
    (h : op.idx < bufLen op.dst) :
    takeDecode op r = .next (opSettle { op with
      dst := ⟨op.dst.base, op.dst.bytes.set op.idx (lane0 (rspData r))⟩
      idx := op.idx + 1
      issued := op.issued + 1 }) := by
  rw [takeDecode, if_neg hr, bufWrite_inside _ h, andThen_next]

/-- Decode stops at INVALID_CHAR. -/
theorem takeDecode_invalid (op : HostOp) {r : Word32} (hr : rspStatus r = Status.invalidChar.code) :
    takeDecode op r = .next { op with
      issued := op.issued + 1
      status := .invalidCharacter op.idx (if (rspErrMask r).getLsbD 0 then 2 * op.idx else 2 * op.idx + 1) } :=
  if_pos hr

/-- While an element is left and dst has room, any response is taken inside dst, and what a call leaves stays true. -/
theorem opTake_fits {op : HostOp} (r : Word32) (hidx : op.idx < opUnits op.kind (bufLen op.src))
    (hroom : opNeeded op.kind (bufLen op.src) ≤ bufLen op.dst) : ∃ op', opTake op r = .next op' ∧ opFits op' := by
  cases hk : op.kind with
  | encode =>
    have hplace : 2 * op.idx + 1 < bufLen op.dst := by
      simp only [hk, opUnits, opNeeded, Config.bytesPerCmd, Config.charsPerByte, Nat.div_one] at hidx hroom
      omega
    simp only [opTake, hk]
    exact ⟨_, takeEncode_inside r hplace, opSettle_fits (by simpa [bufLen, hk] using hroom)⟩
  | decode =>
    have hplace : op.idx < bufLen op.dst := by
      simp only [hk, opUnits, opNeeded] at hidx hroom
      omega
    simp only [opTake, hk]
    by_cases hr : rspStatus r = Status.invalidChar.code
    · exact ⟨_, takeDecode_invalid op hr, nofun⟩
    · exact ⟨_, takeDecode_inside hr hplace, opSettle_fits (by simpa [bufLen, hk] using hroom)⟩

/-- An edge granted to a running operation: its command is accepted and its response taken. -/
theorem opEdge_running {op : HostOp} {w : Word32} (hrun : op.status = .running) (hw : opCommand op = .next w)
    (s : State) :
    opEdge op s = andThen (opTake op (transact s.caseMode w).2) fun op' => .next (op', afterCommand w s) := by
  rw [opEdge, if_pos hrun, hw, andThen_next, step_present, edge_command, accept_eq_afterCommand, andThen_next,
    opCapture, capture_afterCommand]

/-- An edge granted to an operation that has ended is idle. -/
theorem opEdge_ended {op : HostOp} (hend : op.status ≠ .running) (s : State) :
    opEdge op s = .next (op, idleEdge s) := by
  rw [opEdge, if_neg hend, step_present, edge_idleIn, andThen_next]

theorem opEdge_fits {op : HostOp} (h : opFits op) (s : State) :
    ∃ op' t, opEdge op s = .next (op', t) ∧ opFits op' := by
  by_cases hrun : op.status = .running
  · obtain ⟨hidx, hroom⟩ := h hrun
    obtain ⟨w, hw⟩ := opCommand_next hidx
    obtain ⟨op', htake, hfits⟩ := opTake_fits (transact s.caseMode w).2 hidx hroom
    exact ⟨op', afterCommand w s, by rw [opEdge_running hrun hw, htake, andThen_next], hfits⟩
  · exact ⟨op, idleEdge s, opEdge_ended hrun s, h⟩

theorem opRun_fits (fuel : Nat) {op : HostOp} (h : opFits op) (s : State) :
    ∃ op' t, opRun fuel op s = .next (op', t) ∧ opFits op' := by
  induction fuel generalizing op s with
  | zero => exact ⟨op, s, rfl, h⟩
  | succ fuel ih =>
    by_cases hrun : op.status = .running
    · obtain ⟨op₁, t₁, hedge, hfits⟩ := opEdge_fits h s
      rw [opRun, if_pos hrun, hedge, andThen_next]
      exact ih hfits t₁
    · exact ⟨op, s, by rw [opRun, if_neg hrun], h⟩

theorem opStart_fits {k : OpKind} {src dst : Buffer} {op : HostOp} (h : opStart k src dst = .next op) : opFits op := by
  obtain ⟨-, hroom, rfl⟩ := opStart_next h
  exact opSettle_fits hroom

theorem opCalled_fits {k : OpKind} {src dst : Buffer} {op : HostOp} (h : opCalled k src dst = .next op) :
    opFits op := by
  obtain ⟨rfl, hroom⟩ | rfl := opCalled_next h
  · exact opSettle_fits hroom
  · exact nofun

/-- A call run alone faults only by the capacity check of its start (60_exceptions.md rule R163). -/
theorem opCall_fault {k : OpKind} {src dst : Buffer} {s : State} {f : Fault} (h : opCall k src dst s = .fault f) :
    opStart k src dst = .fault f := by
  rw [opCall] at h
  cases hstart : opStart k src dst with
  | next op   =>
    obtain ⟨op', t, hrun, -⟩ := opRun_fits (opUnits k (bufLen src)) (opStart_fits hstart) s
    rw [hstart, andThen_next, hrun] at h
    cases h
  | fault g   => rw [hstart, andThen_fault] at h; cases h; rfl
  | refused r => rw [hstart] at h; cases h

/-! #### Events of a system -/

theorem step_next (s : State) : ∃ t, step s = .next t := by
  obtain ⟨-, hstep⟩ | ⟨-, -, hstep⟩ | ⟨-, -, hstep⟩ := step_cases s
  · exact ⟨_, hstep⟩
  · exact ⟨_, hstep⟩
  · exact ⟨_, hstep⟩

theorem sysStep_edge_next (p : PortIn) (y : System) : ∃ t, sysStep (.edge p) y = .next { y with block := t } := by
  obtain ⟨t, ht⟩ := step_next (present p y.block)
  exact ⟨t, by rw [sysStep, ht, andThen_next]⟩

theorem sysStep_grant {y : System} {k : Nat} {op op' : HostOp} {t : State} (hk : y.ops[k]? = some op)
    (hedge : opEdge op y.block = .next (op', t)) : sysStep (.grant k) y = .next ⟨t, y.ops.set k op'⟩ := by
  simp only [sysStep, hk, hedge, andThen_next]

/-- Log entry 9: a grant to an absent operation is an idle edge. -/
theorem sysStep_grant_absent {y : System} {k : Nat} (hk : y.ops[k]? = none) :
    sysStep (.grant k) y = sysStep (.edge idleIn) y := by
  simp only [sysStep, hk]

/-- Rule R147 point 3: a running operation that misses its capture is refused; to any other the edge is idle. -/
theorem sysStep_missed (k : Nat) (y : System) :
    sysStep (.missed k) y = .refused .responseNotCaptured ∨ sysStep (.missed k) y = sysStep (.edge idleIn) y := by
  cases hk : y.ops[k]? with
  | none    => exact .inr (by simp only [sysStep, hk])
  | some op =>
    by_cases hrun : op.status = .running
    · exact .inl (by simp only [sysStep, hk, if_pos hrun])
    · exact .inr (by simp only [sysStep, hk, if_neg hrun])

/-- A call adds its operation to the others, or is refused. -/
theorem sysStep_call (kind : OpKind) (src dst : Buffer) (y : System) :
    (∃ op, opCalled kind src dst = .next op ∧ sysStep (.call kind src dst) y = .next { y with ops := y.ops ++ [op] }) ∨
      ∃ r, sysStep (.call kind src dst) y = .refused r := by
  cases hcall : opCalled kind src dst with
  | fault f   => exact absurd hcall (opCalled_ne_fault kind src dst f)
  | refused r => exact .inr ⟨r, by rw [sysStep, hcall, andThen_refused]⟩
  | next op   =>
    by_cases hclash : op.status = .running ∧ y.ops.any (buffersClash src dst) = true
    · exact .inr ⟨.sharedBuffers, by rw [sysStep, hcall, andThen_next, if_pos hclash]⟩
    · exact .inl ⟨op, rfl, by rw [sysStep, hcall, andThen_next, if_neg hclash]⟩

/-- An event answers a system whose operations are again as calls leave them, or is refused. -/
theorem sysStep_fits (e : SysEvent) {y : System} (h : ∀ op ∈ y.ops, opFits op) :
    (∃ y', sysStep e y = .next y' ∧ ∀ op ∈ y'.ops, opFits op) ∨ ∃ r, sysStep e y = .refused r := by
  have hedge (p : PortIn) : ∃ y', sysStep (.edge p) y = .next y' ∧ ∀ op ∈ y'.ops, opFits op := by
    obtain ⟨t, ht⟩ := sysStep_edge_next p y
    exact ⟨{ y with block := t }, ht, h⟩
  cases e with
  | edge p => exact .inl (hedge p)
  | grant k =>
    cases hk : y.ops[k]? with
    | none    => exact .inl (sysStep_grant_absent hk ▸ hedge idleIn)
    | some op =>
      obtain ⟨op', t, hgrant, hfits⟩ := opEdge_fits (h op (List.mem_of_getElem? hk)) y.block
      refine .inl ⟨⟨t, y.ops.set k op'⟩, sysStep_grant hk hgrant, fun o ho => ?_⟩
      obtain hold | rfl := List.mem_or_eq_of_mem_set ho
      · exact h o hold
      · exact hfits
  | missed k =>
    obtain hmissed | hidle := sysStep_missed k y
    · exact .inr ⟨_, hmissed⟩
    · exact .inl (hidle ▸ hedge idleIn)
  | call kind src dst =>
    obtain ⟨op, hcall, hnext⟩ | hrefused := sysStep_call kind src dst y
    · refine .inl ⟨{ y with ops := y.ops ++ [op] }, hnext, fun o ho => ?_⟩
      obtain hold | hnew := List.mem_append.1 ho
      · exact h o hold
      · exact List.mem_singleton.1 hnew ▸ opCalled_fits hcall
    · exact .inr hrefused

/-! #### ENC in an encode -/

theorem transact_encode_enc (c : CaseMode) (b : Byte) : transact c (encode (.enc b)) =
    (c, rspWord 0x1 .ok 0 (lanes (lutEnc (lowNibble b) c) (lutEnc (highNibble b) c))) := by
  rw [transact, decode_encode]

/-- Rules R52 and R142: an edge of an encode writes the two characters of its byte under the CASE of that edge. -/
theorem opEdge_encode {op : HostOp} {b : Byte} (hk : op.kind = .encode) (hrun : op.status = .running)
    (hb : op.src.bytes[op.idx]? = some b) (hroom : 2 * op.idx + 1 < bufLen op.dst) (s : State) :
    opEdge op s = .next (opSettle { op with
      dst := ⟨op.dst.base, (op.dst.bytes.set (2 * op.idx) (lutEnc (highNibble b) s.caseMode)).set (2 * op.idx + 1)
        (lutEnc (lowNibble b) s.caseMode)⟩
      idx := op.idx + 1
      issued := op.issued + 1 }, afterCommand (encode (.enc b)) s) := by
  rw [opEdge_running hrun (opCommand_encode hk hb), transact_encode_enc]
  simp only [opTake, hk, takeEncode_inside _ hroom, andThen_next, rspData_rspWord, lane0_lanes, lane1_lanes]

end Sys2Proof.Machine

/-!
### The statements of 20_memory.md

SUPPORT. The statements of 20_memory.md: idempotence and the absence of interference (rules R46 and R51), texts (rule R42),
buffers (rules R41 and R54) and CASE at each edge of an encode (rule R52).
-/
namespace Sys2Proof
open Machine

/-- Settles O8: by induction on the stream, whose every word leaves CASE as it was. -/
theorem commandsOtherThanSetcaseDoNotInterfere : Obligations.CommandsOtherThanSetcaseDoNotInterfere := by
  unfold Obligations.CommandsOtherThanSetcaseDoNotInterfere
  intro c ws h
  induction ws with
  | nil          => rfl
  | cons w ws ih =>
    obtain ⟨hw, hws⟩ := List.forall_mem_cons.1 h
    rw [transactAll_cons, transact_keeps_caseMode hw, ih hws, List.map_cons]

/-- Settles O9: the second accept step finds the CASE the first one left. -/
theorem commandsAreIdempotent : Obligations.CommandsAreIdempotent := by
  unfold Obligations.CommandsAreIdempotent
  intro s w
  refine ⟨afterCommand w s, accept_eq_afterCommand w s, ?_⟩
  rw [accept_eq_afterCommand, afterCommand_again]

/-- Settles O49: both parts by induction on the bytes. -/
theorem encodedTextPositions : Obligations.EncodedTextPositions := by
  unfold Obligations.EncodedTextPositions
  exact fun m bs => ⟨length_encodeText m bs, fun _ _ h => encodeText_getElem? m h⟩

/-- Settles O50: a call asks for overlap first; two buffers that overlap share the address where the later one starts. -/
theorem overlapIsRefused : Obligations.OverlapIsRefused := by
  unfold Obligations.OverlapIsRefused
  refine ⟨fun k src dst s h => ?_, fun a b => ?_⟩
  · rw [opCall, opStart, if_pos h, andThen_refused]
  · simp only [bufOverlap, Bool.and_eq_true, decide_eq_true_eq]
    constructor
    · intro h
      exact ⟨max a.base b.base, by omega, by omega⟩
    · rintro ⟨x, ha, hb⟩
      omega

/-- Settles O52: while an operation fits, every edge of it reads and writes inside its buffers and leaves it fitting; a
call faults by its capacity check alone. -/
theorem noIndexOutsideBuffers : Obligations.NoIndexOutsideBuffers := by
  unfold Obligations.NoIndexOutsideBuffers
  refine ⟨fun k src dst s i n h => ?_, fun e y hfits => ?_⟩
  · obtain ⟨-, -, hf⟩ := opStart_fault (opCall_fault h)
    cases hf
  · obtain ⟨y', hstep, hfits'⟩ | ⟨r, hstep⟩ := sysStep_fits e hfits
    · rw [hstep]
      exact ⟨nofun, fun z hz => by cases hz; exact hfits'⟩
    · rw [hstep]
      exact ⟨nofun, nofun⟩

/-- Settles O56: the edge sets the two indexes of dst, and a read of the list tells them from every other one. -/
theorem encodeUsesCaseOfEachEdge : Obligations.EncodeUsesCaseOfEachEdge := by
  unfold Obligations.EncodeUsesCaseOfEachEdge
  intro op s b hk hrun hb hroom
  refine ⟨_, _, opEdge_encode hk hrun hb hroom s, ?_, opSettle_src _, opSettle_issued _, ?_⟩
  · rw [afterCommand_caseMode, transact_encode_enc]
  · rw [opSettle_dst]
    rw [bufLen] at hroom
    refine ⟨?_, ?_, fun i h0 h1 => ?_⟩
    · rw [List.getElem?_set_ne (by omega), List.getElem?_set_self (by omega)]
    · rw [List.getElem?_set_self (by rw [List.length_set]; exact hroom)]
    · rw [List.getElem?_set_ne h1.symm, List.getElem?_set_ne h0.symm]

end Sys2Proof

/-!
### Response words

SUPPORT. A response word is the sum of its fields, and every response is one of four kinds (30_encoding.md rules R61 and
R70, 60_exceptions.md rules R161 and R162).
-/
namespace Sys2Proof.Machine

/-- Rule R70: the five fields of a response word, and nothing else, make it up. -/
theorem toNat_eq_sum_of_fields (r : Word32) :
    r.toNat = (rspOp r).toNat * 2 ^ 28 + (rspStatus r).toNat * 2 ^ 24 + (rspZero r).toNat * 2 ^ 18 +
      (rspErrMask r).toNat * 2 ^ 16 + (rspData r).toNat := by
  simp only [rspOp, rspStatus, rspZero, rspErrMask, rspData, BitVec.extractLsb'_toNat, Nat.shiftRight_eq_div_pow]
  omega

theorem lanes_lane1_lane0 (d : Data) : lanes (lane1 d) (lane0 d) = d := by
  apply BitVec.eq_of_toNat_eq
  simp only [toNat_lanes, lane1, lane0, BitVec.extractLsb'_toNat, Nat.shiftRight_eq_div_pow]
  omega

theorem getLsbD_16_eq_errMask (r : Word32) : r.getLsbD 16 = (rspErrMask r).getLsbD 0 := by
  simp [rspErrMask]

theorem getLsbD_17_eq_errMask (r : Word32) : r.getLsbD 17 = (rspErrMask r).getLsbD 1 := by
  simp [rspErrMask]

/-- ERRMASK is 0 only when both operands are valid. -/
theorem errMask_ne_zero {v0 v1 : Bool} (h : (v0 && v1) = false) : errMask v0 v1 ≠ 0#2 := by
  revert v0 v1; decide

/-- What rule R61's table asks of a word that meets the invariant. -/
theorem fields_of_wellShaped {r : Word32} (h : wellShaped r = true) :
    (rspStatus r = 0 ∨ rspStatus r = 1 ∨ rspStatus r = 2) ∧ rspZero r = 0 ∧
      (rspStatus r ≠ 1 → rspErrMask r = 0) ∧ (rspStatus r ≠ 0 → rspData r = 0) := by
  simp only [wellShaped, Bool.and_eq_true, Bool.or_eq_true, beq_iff_eq] at h
  obtain ⟨hzero, (⟨⟨hst, hem⟩, -⟩ | ⟨⟨hst, hdata⟩, -⟩) | ⟨⟨hst, hem⟩, hdata⟩⟩ := h
  · exact ⟨.inl hst, hzero, fun _ => hem, fun hne => absurd hst hne⟩
  · exact ⟨.inr (.inl hst), hzero, fun hne => absurd hst hne, fun _ => hdata⟩
  · exact ⟨.inr (.inr hst), hzero, fun _ => hem, fun _ => hdata⟩

/-! #### The fields of a command that decodes -/

theorem cmdA_encode (i : Instr) : cmdA (encode i) = lane0 (operandBits i) := encode_extractLsb' i (by omega)

theorem cmdB_encode (i : Instr) : cmdB (encode i) = lane1 (operandBits i) := encode_extractLsb' i (by omega)

theorem cmdOp_of_decode {w : Word32} {i : Instr} (h : decode w = .ok i) : cmdOp w = opcode i := by
  rw [← encode_of_decode h, cmdOp_encode]

theorem operands_of_decode_dec {w : Word32} {c0 c1 : Byte} (h : decode w = .ok (.dec c0 c1)) :
    cmdA w = c0 ∧ cmdB w = c1 := by
  rw [← encode_of_decode h, cmdA_encode, cmdB_encode]
  exact ⟨lane0_lanes c1 c0, lane1_lanes c1 c0⟩

theorem operand_of_decode_lutdec {w : Word32} {ch : Byte} (h : decode w = .ok (.lutdec ch)) : cmdA w = ch := by
  rw [← encode_of_decode h, cmdA_encode]
  exact lane0_lanes 0 ch

theorem opcode_le (i : Instr) : opcode i ≤ 6 := by
  cases i <;> simp [opcode]

/-! #### The kinds of response -/

/-- What the response `r` to the word `w` can be: an OK of a defined OP, an INVALID_CHAR of DEC that names every invalid
operand, an INVALID_CHAR of LUTDEC that names operand A, or an ILLEGAL_CMD. -/
inductive Answers (w : Word32) : Word32 → Prop where
  | ok (d : Data) (hop : cmdOp w ≤ 6) : Answers w (rspWord (cmdOp w) .ok 0 d)
  | invalidPair (hop : cmdOp w = 0x2) (hinvalid : ((lutDec (cmdA w)).valid && (lutDec (cmdB w)).valid) = false) :
      Answers w (rspWord 0x2 .invalidChar (errMask (lutDec (cmdA w)).valid (lutDec (cmdB w)).valid) 0)
  | invalidChar (hop : cmdOp w = 0x6) (hinvalid : (lutDec (cmdA w)).valid = false) :
      Answers w (rspWord 0x6 .invalidChar 0b01 0)
  | illegal : Answers w (rspWord (cmdOp w) .illegalCmd 0 0)

theorem Answers.ok_of_decode {w : Word32} {i : Instr} (h : decode w = .ok i) (d : Data) :
    Answers w (rspWord (opcode i) .ok 0 d) := by
  have hop := cmdOp_of_decode h
  rw [← hop]
  exact .ok d (hop ▸ opcode_le i)

/-- Rule R124 answers every word with one of the four kinds. -/
theorem transact_answers (c : CaseMode) (w : Word32) : Answers w (transact c w).2 := by
  unfold transact
  cases h : decode w with
  | error e => exact .illegal
  | ok i =>
    have hok (d : Data) := Answers.ok_of_decode h d
    have hop := cmdOp_of_decode h
    cases i with
    | nop       => exact hok _
    | enc b     => exact hok _
    | dec c0 c1 =>
      obtain ⟨rfl, rfl⟩ := operands_of_decode_dec h
      dsimp only
      split
      · exact hok _
      · exact .invalidPair hop (Bool.eq_false_iff.2 ‹_›)
    | setcase m => exact hok _
    | getcase   => exact hok _
    | lutenc n  => exact hok _
    | lutdec ch =>
      obtain rfl := operand_of_decode_lutdec h
      dsimp only
      split
      · exact hok _
      · exact .invalidChar hop (Bool.eq_false_iff.2 ‹_›)

/-- Every answer is a word of the invariant. -/
theorem Answers.wellShaped {w r : Word32} (h : Answers w r) : wellShaped r = true := by
  cases h with
  | ok d hop => simpa [Machine.wellShaped, Status.code] using hop
  | invalidPair hop hinvalid => simpa [Machine.wellShaped, Status.code] using errMask_ne_zero hinvalid
  | invalidChar hop hinvalid => simp [Machine.wellShaped, Status.code]
  | illegal => simp [Machine.wellShaped, Status.code]

theorem Answers.rspOp_eq {w r : Word32} (h : Answers w r) : rspOp r = cmdOp w := by
  cases h with
  | ok d hop => exact rspOp_rspWord _ _ _ _
  | invalidPair hop hinvalid => rw [rspOp_rspWord, hop]
  | invalidChar hop hinvalid => rw [rspOp_rspWord, hop]
  | illegal => exact rspOp_rspWord _ _ _ _

/-- Rule R61: bit 16 names operand A, by the accepted alphabet. -/
theorem Answers.bit16_iff {w r : Word32} (h : Answers w r) :
    r.getLsbD 16 = true ↔ rspStatus r = 1 ∧ cmdA w ∉ acceptedAlphabet := by
  rw [getLsbD_16_eq_errMask, ← lutDec_valid_iff_mem_acceptedAlphabet]
  cases h with
  | ok d hop => simp [Status.code]
  | invalidPair hop hinvalid => rw [rspErrMask_rspWord, errMask_bit0]; simp [Status.code]
  | invalidChar hop hinvalid => simp [Status.code, hinvalid]
  | illegal => simp [Status.code]

/-- Rule R61: bit 17 names operand B, which DEC alone reads as a character. -/
theorem Answers.bit17_iff {w r : Word32} (h : Answers w r) :
    r.getLsbD 17 = true ↔ rspStatus r = 1 ∧ cmdOp w = 0x2 ∧ cmdB w ∉ acceptedAlphabet := by
  rw [getLsbD_17_eq_errMask, ← lutDec_valid_iff_mem_acceptedAlphabet]
  cases h with
  | ok d hop => simp [Status.code]
  | invalidPair hop hinvalid => rw [rspErrMask_rspWord, errMask_bit1]; simp [Status.code, hop]
  | invalidChar hop hinvalid => simp [Status.code, hop]
  | illegal => simp [Status.code]

end Sys2Proof.Machine

/-!
### The statements of 30_encoding.md: responses

SUPPORT. The invariant of RSP, and the response word's format and fields (rules R61 and R70).
-/
namespace Sys2Proof
open Machine

/-- Settles O15: by the three steps an edge can take; an accepted word is answered with one of the four kinds. -/
theorem stepKeepsRspWellShaped : Obligations.StepKeepsRspWellShaped := by
  unfold Obligations.StepKeepsRspWellShaped
  intro s hs
  obtain ⟨-, hstep⟩ | ⟨-, -, hstep⟩ | ⟨-, -, hstep⟩ := step_cases s
  · exact ⟨_, hstep, resetIsWellShaped⟩
  · exact ⟨_, hstep, (transact_answers s.caseMode (sample s).cmd).wellShaped⟩
  · exact ⟨_, hstep, hs⟩

/-- Settles O13: field by field over the four kinds of answer; a built word is the sum of its fields. -/
theorem responseWordFormat : Obligations.ResponseWordFormat := by
  unfold Obligations.ResponseWordFormat
  refine ⟨fun s w => ?_, fun op st em d => ?_, rfl, rfl, rfl⟩
  · have hans := transact_answers s.caseMode w
    obtain ⟨hstatus, hzero, herrMask, hdata⟩ := fields_of_wellShaped hans.wellShaped
    exact ⟨afterCommand w s, accept_eq_afterCommand w s, rfl, hans.rspOp_eq, hstatus, hzero, hans.bit16_iff,
      hans.bit17_iff, herrMask, hdata⟩
  · rw [toNat_eq_sum_of_fields, rspOp_rspWord, rspStatus_rspWord, rspZero_rspWord, rspErrMask_rspWord, rspData_rspWord]
    simp

/-- Settles O14: the fields sum to the word; ENC and DEC build the lanes of DATA that are read back. -/
theorem responseFieldsReadBack : Obligations.ResponseFieldsReadBack := by
  unfold Obligations.ResponseFieldsReadBack
  refine ⟨fun r => ⟨toNat_eq_sum_of_fields r, (lanes_lane1_lane0 _).symm⟩, fun s b => ⟨_, rfl, ?_, ?_⟩,
    fun s n0 n1 c0 c1 h0 h1 => ?_⟩
  · rw [respond_rsp, rspData_rspOk, lane0_lanes, encPair_char0]
  · rw [respond_rsp, rspData_rspOk, lane1_lanes, encPair_char1]
  · have hok : (decPair c0 c1).ok = true := by rw [decPair_ok, h0, h1]; rfl
    refine ⟨_, if_pos hok, ?_⟩
    rw [respond_rsp, rspData_rspOk, lane0_zext16_byte, decPair_byteOut c0 c1 hok, h0, h1]

end Sys2Proof

/-!
### Rows and words

SUPPORT. The rows of rule R64 in terms of OP and the must-be-zero bits, and what the decoder of rule R67 answers by OP.
-/
namespace Sys2Proof
open Machine

/-! #### Rows -/

/-- One command of each row, in the order of OP. -/
def oneOfEachRow : List Instr := [.nop, .enc 0, .dec 0 0, .setcase .lower, .getcase, .lutenc 0, .lutdec 0]

theorem encodingRows_eq_map : encodingRows = oneOfEachRow.map encodingRow := rfl

/-- The rows stand in the order of their OP, so OP tells the row. -/
theorem encodingRows_getElem? (i : Instr) : encodingRows[(opcode i).toNat]? = some (encodingRow i) := by
  cases i <;> rfl

theorem encodingRow_eq_of_opcode_eq {i j : Instr} (h : opcode i = opcode j) : encodingRow i = encodingRow j := by
  rw [← Option.some_inj, ← encodingRows_getElem?, ← encodingRows_getElem?, h]

theorem encodingRow_mask (i : Instr) : (encodingRow i).mask = BitVec.allOnes 32 <<< operandWidth i := by
  cases i <;> simp [encodingRow, operandWidth]

theorem toNat_encodingRow_pattern (i : Instr) : (encodingRow i).pattern.toNat = (opcode i).toNat * 2 ^ 28 := by
  cases i <;> simp [encodingRow, opcode]

theorem cmdOp_encodingRow_pattern (i : Instr) : cmdOp (encodingRow i).pattern = opcode i := by
  apply BitVec.eq_of_toNat_eq
  rw [toNat_cmdOp, toNat_encodingRow_pattern, Nat.mul_div_cancel _ (by decide)]

/-- A mask without its low `k` bits clears those bits. -/
theorem toNat_and_allOnes_shiftLeft (w : Word32) (k : Nat) :
    (w &&& BitVec.allOnes 32 <<< k).toNat = w.toNat / 2 ^ k * 2 ^ k := by
  have hshift : w &&& BitVec.allOnes 32 <<< k = w >>> k <<< k := by
    ext b hb
    by_cases hlow : b < k
    · simp [hlow]
    · simp [hlow, Nat.add_sub_cancel' (Nat.le_of_not_lt hlow), BitVec.getLsbD_eq_getElem hb, -BitVec.reduceAllOnes]
  have hfits : w.toNat / 2 ^ k * 2 ^ k < 2 ^ 32 := (Nat.div_mul_le_self _ _).trans_lt w.isLt
  rw [hshift, BitVec.toNat_shiftLeft, BitVec.toNat_ushiftRight, Nat.shiftRight_eq_div_pow, Nat.shiftLeft_eq,
    Nat.mod_eq_of_lt hfits]

/-- Rule R64, row by row: the row of a command accepts the words with its OP and its must-be-zero bits zero. -/
theorem encodingRow_accepts_iff (i : Instr) (w : Word32) :
    (encodingRow i).accepts w = true ↔ cmdOp w = opcode i ∧ cmdFrom w (operandWidth i) = 0 := by
  have hw := w.isLt
  rw [EncodingRow.accepts, beq_iff_eq, encodingRow_mask, ← BitVec.toNat_inj, ← BitVec.toNat_inj,
    toNat_and_allOnes_shiftLeft, toNat_encodingRow_pattern, toNat_cmdOp, cmdFrom]
  cases i <;> simp only [operandWidth] <;> omega

theorem opcode_eq_of_accepts {i j : Instr} {w : Word32} (hi : (encodingRow i).accepts w = true)
    (hj : (encodingRow j).accepts w = true) : opcode i = opcode j := by
  obtain ⟨hopi, -⟩ := (encodingRow_accepts_iff i w).1 hi
  obtain ⟨hopj, -⟩ := (encodingRow_accepts_iff j w).1 hj
  exact hopi.symm.trans hopj

theorem legal_iff_exists_row (w : Word32) : legal w = true ↔ ∃ r ∈ encodingRows, r.accepts w = true :=
  List.any_eq_true

/-! #### The decoder, by OP -/

theorem decode_of_undefinedOpcode {w : Word32} (h : 7 ≤ (cmdOp w).toNat) :
    decode w = .error (.undefinedOpcode (cmdOp w)) := by
  unfold decode
  split
  case h_8 => rfl
  all_goals omega

theorem exists_opcode_eq {op : BitVec 4} (h : op.toNat < 7) : ∃ i, opcode i = op := by
  have hmem : op ∈ oneOfEachRow.map opcode := by revert op; decide
  obtain ⟨i, -, hi⟩ := List.mem_map.1 hmem
  exact ⟨i, hi⟩

/-- A word with the OP of a command is held to that command's line of rule R67. -/
theorem decode_of_cmdOp {w : Word32} {i : Instr} (h : cmdOp w = opcode i) :
    ∃ j, decode w = zeroFrom (operandWidth i) w (encodingRow i).mnemonic j := by
  rw [decode, h]
  cases i <;> exact ⟨_, rfl⟩

theorem zeroFrom_ok {n : Nat} {w : Word32} (h : cmdFrom w n = 0) (name : String) (i : Instr) :
    zeroFrom n w name i = .ok i := if_pos h

theorem zeroFrom_error {n : Nat} {w : Word32} (h : cmdFrom w n ≠ 0) (name : String) (i : Instr) :
    zeroFrom n w name i = .error (.mustBeZero name) := if_neg h

/-- A word that a row of rule R64 accepts decodes. -/
theorem exists_decode_of_legal {w : Word32} (h : legal w = true) : ∃ i, decode w = .ok i := by
  obtain ⟨r, hr, haccepts⟩ := (legal_iff_exists_row w).1 h
  rw [encodingRows_eq_map] at hr
  obtain ⟨i, -, rfl⟩ := List.mem_map.1 hr
  obtain ⟨hop, hzero⟩ := (encodingRow_accepts_iff i w).1 haccepts
  obtain ⟨j, hdecode⟩ := decode_of_cmdOp hop
  exact ⟨j, hdecode.trans (zeroFrom_ok hzero _ j)⟩

theorem legal_of_decode {w : Word32} {i : Instr} (h : decode w = .ok i) : legal w = true :=
  encode_of_decode h ▸ legal_encode i

/-- Rule R67 in numbers, for one line: cmd[27:n] = 0 is a division. -/
theorem toOption_zeroFrom (n : Nat) (w : Word32) (name : String) (i : Instr) :
    (zeroFrom n w name i).toOption = if w.toNat % 2 ^ 28 / 2 ^ n = 0 then some i else none := by
  unfold zeroFrom cmdFrom
  split <;> rfl

/-! #### The legal words, row by row -/

/-- The words of a command's row: OP above, any operand bits below. -/
def rowWords (i : Instr) : List Word32 :=
  (List.range' ((opcode i).toNat * 2 ^ 28) (2 ^ operandWidth i)).map (BitVec.ofNat 32)

theorem two_pow_operandWidth_le (i : Instr) : 2 ^ operandWidth i ≤ 2 ^ 28 :=
  Nat.pow_le_pow_right two_pos (operandWidth_le i)

theorem mem_rowWords (i : Instr) (w : Word32) : w ∈ rowWords i ↔ (encodingRow i).accepts w = true := by
  have hle := two_pow_operandWidth_le i
  have hw := w.isLt
  have hop := (opcode i).isLt
  rw [encodingRow_accepts_iff, ← BitVec.toNat_inj, toNat_cmdOp, cmdFrom, Nat.div_eq_zero_iff_lt (by positivity)]
  simp only [rowWords, List.mem_map, List.mem_range'_1]
  constructor
  · rintro ⟨x, hx, rfl⟩
    rw [BitVec.toNat_ofNat, Nat.mod_eq_of_lt (by omega)]
    omega
  · intro h
    exact ⟨w.toNat, by omega, BitVec.ofNat_toNat ..⟩

theorem nodup_rowWords (i : Instr) : (rowWords i).Nodup := by
  have hle := two_pow_operandWidth_le i
  have hop := (opcode i).isLt
  refine (List.nodup_range' (step := 1)).map_on fun x hx y hy hxy => ?_
  rw [List.mem_range'_1] at hx hy
  have hmod := congrArg BitVec.toNat hxy
  rwa [BitVec.toNat_ofNat, BitVec.toNat_ofNat, Nat.mod_eq_of_lt (by omega), Nat.mod_eq_of_lt (by omega)] at hmod

theorem length_rowWords (i : Instr) : (rowWords i).length = 2 ^ operandWidth i := by
  rw [rowWords, List.length_map, List.length_range']

/-- No word lies in the rows of two OPs. -/
theorem disjoint_rowWords {i j : Instr} (h : opcode i ≠ opcode j) : (rowWords i).Disjoint (rowWords j) :=
  fun w hi hj => h (opcode_eq_of_accepts ((mem_rowWords i w).1 hi) ((mem_rowWords j w).1 hj))

/-- Every legal word, in the order of the words' numbers. -/
def legalWords : List Word32 := oneOfEachRow.flatMap rowWords

theorem mem_legalWords (w : Word32) : w ∈ legalWords ↔ legal w = true := by
  simp only [legalWords, legal_iff_exists_row, encodingRows_eq_map, List.mem_flatMap, List.mem_map,
    exists_exists_and_eq_and, mem_rowWords]

theorem nodup_legalWords : legalWords.Nodup := by
  have hop : oneOfEachRow.Pairwise fun i j => opcode i ≠ opcode j := by decide
  exact List.nodup_flatMap.2 ⟨fun i _ => nodup_rowWords i, hop.imp disjoint_rowWords⟩

theorem length_legalWords : legalWords.length = 66068 := by
  simp only [legalWords, List.length_flatMap, length_rowWords]
  rfl

end Sys2Proof

/-!
### The statements of 30_encoding.md: words and notation

SUPPORT. The encoder, the decoder and the row table on every word (rules R60 to R67), and the assembler notation (rules
R68 and R69).
-/
namespace Sys2Proof
open Machine

/-- Settles O18: the decoder takes back each command's word, and a word that decodes is its command's. -/
theorem decodeAndEncodeAgree : Obligations.DecodeAndEncodeAgree := by
  unfold Obligations.DecodeAndEncodeAgree
  exact ⟨decode_encode, fun _ _ => encode_of_decode⟩

/-- Settles O19: a word is OP times 2^28 and the operand bits, which are lanes or an extension. -/
theorem encodedWordsAsNumbers : Obligations.EncodedWordsAsNumbers := by
  unfold Obligations.EncodedWordsAsNumbers
  refine ⟨rfl, fun b => ?enc, fun c0 c1 => ?dec, fun m => ?setcase, rfl, fun n => ?lutenc, fun ch => ?lutdec⟩
  all_goals rw [toNat_encode, operandBits]
  case enc     => simp [opcode, toNat_lanes]
  case dec     => simp [opcode, toNat_lanes, Nat.add_assoc]
  case setcase => simp [opcode, toNat_zext16]
  case lutenc  => simp [opcode, toNat_zext16]
  case lutdec  => simp [opcode, toNat_lanes]

/-- Settles O20: by OP, each line of rule R67 is its division, and each operand is its remainder. -/
theorem decodeFollowsTheProcedure : Obligations.DecodeFollowsTheProcedure := by
  unfold Obligations.DecodeFollowsTheProcedure
  intro w
  have hA : cmdA w = BitVec.ofNat 8 w.toNat := BitVec.eq_of_toNat_eq (toNat_cmdA w)
  have hB : cmdB w = BitVec.ofNat 8 (w.toNat / 2 ^ 8) := BitVec.eq_of_toNat_eq (toNat_cmdB w)
  have hnibble : cmdNibble w = BitVec.ofNat 4 w.toNat := BitVec.eq_of_toNat_eq (toNat_cmdNibble w)
  have hcase : CaseMode.ofBit (cmdCase w) = if w.toNat % 2 = 0 then .lower else .upper := by
    simp only [CaseMode.ofBit, ← BitVec.toNat_inj, toNat_cmdCase]
    rfl
  rw [← toNat_cmdOp]
  unfold decode
  split
  case h_8 h0 h1 h2 h3 h4 h5 h6 =>
    simp only [if_neg h0, if_neg h1, if_neg h2, if_neg h3, if_neg h4, if_neg h5, if_neg h6]
    rfl
  all_goals
    rename_i hop
    simp [toOption_zeroFrom, hop, hA, hB, hnibble, hcase]

/-- Settles O21: OP tells the row, and under its OP a word decodes iff its must-be-zero bits are zero. -/
theorem legalIffDecodes : Obligations.LegalIffDecodes := by
  unfold Obligations.LegalIffDecodes
  intro w
  refine ⟨?_, ⟨exists_decode_of_legal, fun ⟨_, hi⟩ => legal_of_decode hi⟩, fun r₁ h₁ r₂ h₂ ha₁ ha₂ => ?_,
    fun i hi => ?_⟩
  · simp only [legal_iff_exists_row, EncodingRow.accepts, beq_iff_eq]
  · rw [encodingRows_eq_map] at h₁ h₂
    obtain ⟨i, -, rfl⟩ := List.mem_map.1 h₁
    obtain ⟨j, -, rfl⟩ := List.mem_map.1 h₂
    exact encodingRow_eq_of_opcode_eq (opcode_eq_of_accepts ha₁ ha₂)
  · rw [← encode_of_decode hi]
    exact ⟨encodingRow_mem i, beq_iff_eq.2 (encode_tableRow i)⟩

/-- Settles O22: the rows' words, 2 to the operand width of each row. -/
theorem legalWordsAre66068 : Obligations.LegalWordsAre66068 := by
  unfold Obligations.LegalWordsAre66068
  exact ⟨legalWords, nodup_legalWords, length_legalWords, mem_legalWords⟩

/-- Settles O23: OP is undefined, or it is a command's and its row does not accept the word. -/
theorem illegalWordsAreNamed : Obligations.IllegalWordsAreNamed := by
  unfold Obligations.IllegalWordsAreNamed
  intro w hw
  by_cases hundefined : 7 ≤ (cmdOp w).toNat
  · exact .inl ⟨hundefined, decode_of_undefinedOpcode hundefined⟩
  · have hdefined : (cmdOp w).toNat < 7 := Nat.lt_of_not_le hundefined
    obtain ⟨i, hop⟩ := exists_opcode_eq hdefined
    have hrow : (encodingRow i).accepts w ≠ true := fun haccepts => by
      rw [(legal_iff_exists_row w).2 ⟨_, encodingRow_mem i, haccepts⟩] at hw
      cases hw
    have hnonzero : cmdFrom w (operandWidth i) ≠ 0 := fun hzero =>
      hrow ((encodingRow_accepts_iff i w).2 ⟨hop.symm, hzero⟩)
    obtain ⟨j, hdecode⟩ := decode_of_cmdOp hop.symm
    exact .inr ⟨hdefined, encodingRow i, encodingRow_mem i, hdecode.trans (zeroFrom_error hnonzero _ j),
      (cmdOp_encodingRow_pattern i).trans hop, fun heq => hrow (beq_iff_eq.2 heq)⟩

/-- Settles O17: by running the decoder. -/
theorem commandWordsDecode : Obligations.CommandWordsDecode := by
  unfold Obligations.CommandWordsDecode
  decide

/-! #### Assembler notation -/

theorem assemble_of_inRange {a : AsmStmt} (h : asmInRange a = true) : assemble a = .ok (asmWord a) := if_pos h

theorem assemble_of_not_inRange {a : AsmStmt} (h : ¬ asmInRange a = true) :
    assemble a = .error .operandOutOfRange := if_neg h

theorem inRange_of_assemble {a : AsmStmt} {w : Word32} (h : assemble a = .ok w) :
    asmInRange a = true ∧ asmWord a = w := by
  by_cases hrange : asmInRange a = true
  · rw [assemble_of_inRange hrange] at h
    exact ⟨hrange, Except.ok.inj h⟩
  · rw [assemble_of_not_inRange hrange] at h
    cases h

/-- Every statement but `.word` stands for a command's word. -/
theorem asmWord_eq_encode (a : AsmStmt) : (∃ n, a = .word n) ∨ ∃ i, asmWord a = encode i := by
  cases a with
  | word n => exact .inl ⟨n, rfl⟩
  | _      => exact .inr ⟨_, rfl⟩

theorem asmInRange_asmOfInstr (i : Instr) : asmInRange (asmOfInstr i) = true := by
  cases i with
  | nop       => rfl
  | enc b     => exact decide_eq_true b.isLt
  | dec c0 c1 => exact Bool.and_eq_true_iff.2 ⟨decide_eq_true c0.isLt, decide_eq_true c1.isLt⟩
  | setcase m => exact decide_eq_true m.bit.isLt
  | getcase   => rfl
  | lutenc n  => exact decide_eq_true n.isLt
  | lutdec ch => exact decide_eq_true ch.isLt

theorem asmWord_asmOfInstr (i : Instr) : asmWord (asmOfInstr i) = encode i := by
  cases i <;> simp [asmOfInstr, asmWord]

theorem assemble_asmOfInstr (i : Instr) : assemble (asmOfInstr i) = .ok (encode i) := by
  rw [assemble_of_inRange (asmInRange_asmOfInstr i), asmWord_asmOfInstr]

/-- Rule R68: `.word` writes any word. -/
theorem assemble_word (w : Word32) : assemble (.word w.toNat) = .ok w := by
  have hrange : asmInRange (.word w.toNat) = true := decide_eq_true w.isLt
  rw [assemble_of_inRange hrange, asmWord, BitVec.ofNat_toNat, BitVec.setWidth_eq]

/-- Rule R69: a command is printed under its own mnemonic. -/
theorem asmOfInstr_ne (i : Instr) :
    asmOfInstr i ≠ .lower ∧ asmOfInstr i ≠ .upper ∧ ∀ n, asmOfInstr i ≠ .word n := by
  cases i <;> simp [asmOfInstr]

/-- Settles O58: a word that decodes is printed as its command, and any other as `.word`. -/
theorem assembleTakesBackDisassembly : Obligations.AssembleTakesBackDisassembly := by
  unfold Obligations.AssembleTakesBackDisassembly
  intro w
  cases hdecode : decode w with
  | ok i =>
    obtain ⟨hlower, hupper, hword⟩ := asmOfInstr_ne i
    simp only [disassemble, hdecode]
    exact ⟨encode_of_decode hdecode ▸ assemble_asmOfInstr i, hlower, hupper, fun _ => hword⟩
  | error e =>
    simp only [disassemble, hdecode]
    refine ⟨assemble_word w, nofun, nofun, fun hlegal => ?_⟩
    obtain ⟨i, hi⟩ := exists_decode_of_legal hlegal
    rw [hi] at hdecode
    cases hdecode

/-- Settles O59: every statement but `.word` is a legal word, and the ranges are what `assemble` asks. -/
theorem assemblerWritesLegalWords : Obligations.AssemblerWritesLegalWords := by
  unfold Obligations.AssemblerWritesLegalWords
  refine ⟨fun a w hok hw => ?_, fun a => ?_, fun b hb => ?_, fun n hn => ?_, fun c0 c1 hc => ?_, fun ch hch => ?_,
    fun m hm => ?_, fun w hw => ?_, rfl, rfl, rfl, rfl⟩
  · obtain hword | ⟨i, hi⟩ := asmWord_eq_encode a
    · exact hword
    · obtain ⟨-, rfl⟩ := inRange_of_assemble hok
      rw [hi, legal_encode] at hw
      cases hw
  · exact ⟨fun ⟨_, hok⟩ => (inRange_of_assemble hok).1, fun h => ⟨_, assemble_of_inRange h⟩⟩
  all_goals
    apply assemble_of_not_inRange
    simp only [asmInRange, Bool.and_eq_true, decide_eq_true_eq]
    omega

end Sys2Proof

/-!
### Commands of a row

SUPPORT. The words of a command's row in the notation of 40_lut.md rules R86 and R87: the operand under its OP, and a word
with that OP outside the row.
-/
namespace Sys2Proof
open Machine

/-- Rules R64 and R123: a word with the OP of a command but outside the command's row is ILLEGAL_CMD. -/
theorem accept_of_cmdOp_of_not_row {i : Instr} {w : Word32} (hop : cmdOp w = opcode i)
    (hrow : w &&& (encodingRow i).mask ≠ (encodingRow i).pattern) (s : State) :
    accept w s = .next (respond (rspWord (opcode i) .illegalCmd 0 0) s) := by
  have hnonzero : cmdFrom w (operandWidth i) ≠ 0 := fun hzero =>
    hrow (beq_iff_eq.1 ((encodingRow_accepts_iff i w).2 ⟨hop, hzero⟩))
  obtain ⟨j, hdecode⟩ := decode_of_cmdOp hop
  rw [accept_of_illegal (hdecode.trans (zeroFrom_error hnonzero _ j)), hop]

theorem lanes_zero (b : Byte) : lanes 0#8 b = zext16 b := by
  simp [lanes, zext16]

theorem setWidth_zext16 {n : Nat} (h : n ≤ 16) (v : BitVec n) : (zext16 v).setWidth 32 = v.setWidth 32 :=
  BitVec.setWidth_setWidth (by omega)

theorem encode_lutenc (n : Nibble) : encode (.lutenc n) = 0x50000000 ||| n.setWidth 32 := by
  simp [encode, opcode, operandBits, setWidth_zext16]

theorem encode_lutdec (ch : Byte) : encode (.lutdec ch) = 0x60000000 ||| ch.setWidth 32 := by
  simp [encode, opcode, operandBits, lanes_zero, setWidth_zext16]

end Sys2Proof

/-!
### Lookups

SUPPORT. The two lookups range by range (40_lut.md rules R80 and R83), and what follows from the ranges: the round trip,
the spellings of a nibble, and case folding (rules R82 and R85).
-/
namespace Sys2Proof.Machine

/-! #### The forward lookup -/

theorem lutEnc_digit {n : Nibble} (h : n ≤ 9) (m : CaseMode) : lutEnc n m = 0x30 + n.setWidth 8 := if_pos h

theorem lutEnc_lower {n : Nibble} (h : ¬ n ≤ 9) : lutEnc n .lower = 0x61 + (n.setWidth 8 - 10) := if_neg h

theorem lutEnc_upper {n : Nibble} (h : ¬ n ≤ 9) : lutEnc n .upper = 0x41 + (n.setWidth 8 - 10) := if_neg h

/-- Rule R86: the digits alone are spelt the same in both modes. -/
theorem lutEnc_lower_eq_upper_iff (n : Nibble) : lutEnc n .lower = lutEnc n .upper ↔ n ≤ 9 := by
  refine ⟨fun heq => ?_, fun hdigit => by rw [lutEnc_digit hdigit, lutEnc_digit hdigit]⟩
  by_contra hletter
  rw [lutEnc_lower hletter, lutEnc_upper hletter, BitVec.add_left_inj] at heq
  exact absurd heq (by decide)

/-- A mode's column of rule R81, read in order, is the lookup of each nibble in turn. -/
theorem map_lutEnc_range (m : CaseMode) :
    ((List.range 16).map fun n => lutEnc (BitVec.ofNat 4 n) m) = forwardTable m := by
  cases m <;> rfl

theorem alphabet_eq_forwardTable (m : CaseMode) : alphabet m = forwardTable m := by
  cases m <;> rfl

/-- Rule R82: a character of the selected alphabet. -/
theorem lutEnc_mem_alphabet (n : Nibble) (m : CaseMode) : lutEnc n m ∈ alphabet m := by
  rw [alphabet_eq_forwardTable]
  exact List.mem_of_getElem? (forwardTable_getElem? m n)

/-- Rule R86: the character of LUTENC leaves DATA[15:8] zero. -/
theorem lane1_zext16_byte (b : Byte) : lane1 (zext16 b) = 0#8 := by
  rw [← lanes_zero, lane1_lanes]

/-! #### The reverse lookup -/

theorem lutDec_digit {ch : Byte} (h : 0x30 ≤ ch ∧ ch ≤ 0x39) : lutDec ch = ⟨true, (ch - 0x30).setWidth 4⟩ := if_pos h

theorem lutDec_upper {ch : Byte} (h : 0x41 ≤ ch ∧ ch ≤ 0x46) : lutDec ch = ⟨true, (ch - 0x41 + 10).setWidth 4⟩ := by
  have hdigit : ¬ (0x30 ≤ ch ∧ ch ≤ 0x39) := by bv_omega
  rw [lutDec, if_neg hdigit, if_pos h]

theorem lutDec_lower {ch : Byte} (h : 0x61 ≤ ch ∧ ch ≤ 0x66) : lutDec ch = ⟨true, (ch - 0x61 + 10).setWidth 4⟩ := by
  have hdigit : ¬ (0x30 ≤ ch ∧ ch ≤ 0x39) := by bv_omega
  have hupper : ¬ (0x41 ≤ ch ∧ ch ≤ 0x46) := by bv_omega
  rw [lutDec, if_neg hdigit, if_neg hupper, if_pos h]

theorem lutDec_of_not_isHexDigit {ch : Byte} (h : ¬ isHexDigit ch) : lutDec ch = ⟨false, 0⟩ := by
  rw [isHexDigit, not_or, not_or] at h
  obtain ⟨hdigit, hupper, hlower⟩ := h
  rw [lutDec, if_neg hdigit, if_neg hupper, if_neg hlower]

/-- Rule R85 law 1: the reverse lookup takes back the character of a nibble, in either mode. -/
theorem lutDec_lutEnc (n : Nibble) (m : CaseMode) : lutDec (lutEnc n m) = ⟨true, n⟩ := by
  by_cases hdigit : n ≤ 9
  · rw [lutEnc_digit hdigit, lutDec_digit (by bv_omega), LutDecOut.mk.injEq]
    exact ⟨rfl, by bv_omega⟩
  · cases m with
    | lower =>
      rw [lutEnc_lower hdigit, lutDec_lower (by bv_omega), LutDecOut.mk.injEq]
      exact ⟨rfl, by bv_omega⟩
    | upper =>
      rw [lutEnc_upper hdigit, lutDec_upper (by bv_omega), LutDecOut.mk.injEq]
      exact ⟨rfl, by bv_omega⟩

/-- Rule R82: a mode spells no two nibbles alike. -/
theorem lutEnc_injective {n k : Nibble} {m : CaseMode} (h : lutEnc n m = lutEnc k m) : n = k := by
  have hdec : (⟨true, n⟩ : LutDecOut) = ⟨true, k⟩ := by rw [← lutDec_lutEnc n m, h, lutDec_lutEnc]
  exact (LutDecOut.mk.inj hdec).2

/-- Rule R85 law 2: a hexadecimal digit is one of the two spellings of its nibble. -/
theorem eq_lutEnc_of_isHexDigit {ch : Byte} (h : isHexDigit ch) :
    ch = lutEnc (lutDec ch).nib .lower ∨ ch = lutEnc (lutDec ch).nib .upper := by
  obtain hdigit | hupper | hlower := h
  · left
    rw [lutDec_digit hdigit, lutEnc_digit (by bv_omega)]
    bv_omega
  · right
    rw [lutDec_upper hupper, lutEnc_upper (by bv_omega)]
    bv_omega
  · left
    rw [lutDec_lower hlower, lutEnc_lower (by bv_omega)]
    bv_omega

/-- A letter and its other case are looked up alike: the six digits of one range are the six of the other, and the letters
after them are invalid in both. -/
theorem lutDec_add_0x20 {ch : Byte} (h : 0x41 ≤ ch ∧ ch ≤ 0x5A) : lutDec (ch + 0x20) = lutDec ch := by
  by_cases hhex : ch ≤ 0x46
  · rw [lutDec_upper ⟨h.1, hhex⟩, lutDec_lower (by bv_omega), LutDecOut.mk.injEq]
    exact ⟨rfl, by bv_omega⟩
  · have hlower : ¬ isHexDigit (ch + 0x20) := by unfold isHexDigit; bv_omega
    have hupper : ¬ isHexDigit ch := by unfold isHexDigit; bv_omega
    rw [lutDec_of_not_isHexDigit hlower, lutDec_of_not_isHexDigit hupper]

/-- Rule R85 law 3, folding to lower. -/
theorem lutDec_toLowerASCII (ch : Byte) : lutDec (toLowerASCII ch) = lutDec ch := by
  unfold toLowerASCII
  split
  case isTrue hletter => exact lutDec_add_0x20 hletter
  case isFalse => rfl

/-- Rule R85 law 3, folding to upper: it is undone by adding 0x20. -/
theorem lutDec_toUpperASCII (ch : Byte) : lutDec (toUpperASCII ch) = lutDec ch := by
  unfold toUpperASCII
  split
  case isTrue hletter =>
    have hfold := lutDec_add_0x20 (ch := ch - 0x20) (by bv_omega)
    rwa [BitVec.sub_add_cancel, eq_comm] at hfold
  case isFalse => rfl

/-! #### The range table -/

/-- Of rows in ascending order, at most one holds an octet. -/
theorem filter_rows_eq_singleton {rows : List ReverseRange} (hasc : rows.Pairwise fun r r' => r.hi < r'.lo)
    {r : ReverseRange} (hr : r ∈ rows) {n : Nat} (hn : r.lo ≤ n ∧ n ≤ r.hi) :
    rows.filter (fun r => decide (r.lo ≤ n ∧ n ≤ r.hi)) = [r] := by
  induction rows with
  | nil => cases hr
  | cons a rows ih =>
    obtain ⟨hfirst, hasc⟩ := List.pairwise_cons.1 hasc
    obtain rfl | hr := List.mem_cons.1 hr
    · rw [List.filter_cons_of_pos (by simpa using hn), List.filter_eq_nil_iff.2]
      intro r' hr' hin
      have hafter := hfirst r' hr'
      rw [decide_eq_true_eq] at hin
      omega
    · have hbefore := hfirst r hr
      rw [List.filter_cons_of_neg (by rw [decide_eq_true_eq]; omega), ih hasc hr]

/-- Rule R83: the rows cover the octets. -/
theorem exists_row (ch : Byte) : ∃ r ∈ reverseRanges, r.lo ≤ ch.toNat ∧ ch.toNat ≤ r.hi := by
  have hlt := ch.isLt
  simp only [reverseRanges, List.exists_mem_cons_iff, List.not_mem_nil, false_and, exists_false, or_false]
  omega

theorem answer_of_valid_row {r : ReverseRange} {ch : Byte} {n : Nibble} (hvalid : r.valid = true)
    (hdec : lutDec ch = ⟨true, n⟩) (hnib : BitVec.ofNat 4 (ch.toNat - r.bias) = n) : r.answer ch = lutDec ch := by
  rw [hdec, ReverseRange.answer, if_pos hvalid, hvalid, hnib]

theorem answer_of_invalid_row {r : ReverseRange} {ch : Byte} (hinvalid : r.valid = false) (hch : ¬ isHexDigit ch) :
    r.answer ch = lutDec ch := by
  rw [lutDec_of_not_isHexDigit hch, ReverseRange.answer, hinvalid]
  rfl

/-- Rule R83: the lookup answers as the row of the octet says. -/
theorem answer_of_row {r : ReverseRange} (hr : r ∈ reverseRanges) {ch : Byte}
    (hch : r.lo ≤ ch.toNat ∧ ch.toNat ≤ r.hi) : r.answer ch = lutDec ch := by
  simp only [reverseRanges, List.mem_cons, List.not_mem_nil, or_false] at hr
  obtain rfl | rfl | rfl | rfl | rfl | rfl | rfl | rfl := hr
  · exact answer_of_invalid_row rfl (by unfold isHexDigit; bv_omega)
  · exact answer_of_valid_row rfl (lutDec_digit (by bv_omega)) (by bv_omega)
  · exact answer_of_invalid_row rfl (by unfold isHexDigit; bv_omega)
  · exact answer_of_valid_row rfl (lutDec_upper (by bv_omega)) (by bv_omega)
  · exact answer_of_invalid_row rfl (by unfold isHexDigit; bv_omega)
  · exact answer_of_valid_row rfl (lutDec_lower (by bv_omega)) (by bv_omega)
  · exact answer_of_invalid_row rfl (by unfold isHexDigit; bv_omega)
  · exact answer_of_invalid_row rfl (by unfold isHexDigit; bv_omega)

/-- The valid octets are the 22 characters of the accepted alphabet. -/
theorem length_filter_valid :
    ((List.range 256).filter fun n => (lutDec (BitVec.ofNat 8 n)).valid).length = 22 := by
  have hnodup : (acceptedAlphabet.map BitVec.toNat).Nodup :=
    (List.nodup_dedup _).map fun _ _ => BitVec.eq_of_toNat_eq
  have hperm : ((List.range 256).filter fun n => (lutDec (BitVec.ofNat 8 n)).valid).Perm
      (acceptedAlphabet.map BitVec.toNat) := by
    rw [List.perm_ext_iff_of_nodup (List.nodup_range.filter _) hnodup]
    intro n
    rw [List.mem_filter, List.mem_range, List.mem_map, lutDec_valid_iff_mem_acceptedAlphabet]
    constructor
    · rintro ⟨hlt, hmem⟩
      exact ⟨_, hmem, Nat.mod_eq_of_lt hlt⟩
    · rintro ⟨ch, hmem, rfl⟩
      rw [BitVec.ofNat_toNat, BitVec.setWidth_eq]
      exact ⟨ch.isLt, hmem⟩
  rw [hperm.length_eq, List.length_map]
  rfl

theorem length_filter_invalid :
    ((List.range 256).filter fun n => !(lutDec (BitVec.ofNat 8 n)).valid).length = 234 := by
  have hsum := (List.range 256).length_eq_length_filter_add fun n => (lutDec (BitVec.ofNat 8 n)).valid
  rw [List.length_range, length_filter_valid] at hsum
  omega

end Sys2Proof.Machine

/-!
### The statements of 40_lut.md

SUPPORT. The statements of 40_lut.md: the two lookups as tables (rules R81 and R83), their laws (rules R82 and R85), and
the commands LUTENC and LUTDEC (rules R86 and R87).
-/
namespace Sys2Proof
open Machine

/-- Settles O34: LUTENC always succeeds, and its row of rule R64 holds its words alone. -/
theorem lutencAnswers : Obligations.LutencAnswers := by
  unfold Obligations.LutencAnswers
  refine ⟨fun n s => rfl, fun n m => lane1_zext16_byte _, lutEnc_lower_eq_upper_iff, fun n => ?_, fun s w hop hrow => ?_⟩
  · rw [← encode_lutenc, decode_encode]
  · exact accept_of_cmdOp_of_not_row (i := .lutenc 0) hop hrow s

/-- Settles O35: by whether the character is valid; LUTDEC's row of rule R64 holds its words alone. -/
theorem lutdecAnswers : Obligations.LutdecAnswers := by
  unfold Obligations.LutdecAnswers
  refine ⟨fun ch s => ?_, fun ch => ?_, fun s w hop hrow => ?_⟩
  · rw [exec, execLutdec]
    split
    case isTrue  => rfl
    case isFalse => rfl
  · rw [← encode_lutdec, decode_encode]
  · exact accept_of_cmdOp_of_not_row (i := .lutdec 0) hop hrow s

/-- Settles O24: each column in order, and the table entry by entry. -/
theorem forwardLookupIsTheTable : Obligations.ForwardLookupIsTheTable := by
  unfold Obligations.ForwardLookupIsTheTable
  exact ⟨map_lutEnc_range .lower, map_lutEnc_range .upper, fun n m => forwardTable_getElem? m n⟩

/-- Settles O25: some row holds the octet, no other does because the rows ascend, and it answers as the lookup. -/
theorem reverseLookupIsTheRangeTable : Obligations.ReverseLookupIsTheRangeTable := by
  unfold Obligations.ReverseLookupIsTheRangeTable
  refine ⟨fun ch => ?_, length_filter_valid, length_filter_invalid⟩
  have hasc : reverseRanges.Pairwise fun r r' => r.hi < r'.lo := by decide
  obtain ⟨r, hr, hch⟩ := exists_row ch
  rw [filter_rows_eq_singleton hasc hr hch, List.map_singleton, answer_of_row hr hch]

/-- Settles O27: injectivity by the round trip, which goes range by range, as the spellings and the folding do. -/
theorem lookupLaws : Obligations.LookupLaws := by
  unfold Obligations.LookupLaws
  exact ⟨lutEnc_mem_alphabet, fun _ _ _ => lutEnc_injective, lutDec_lutEnc,
    fun ch hvalid => eq_lutEnc_of_isHexDigit ((lutDec_valid_iff_isHexDigit ch).1 hvalid),
    fun ch => ⟨lutDec_toLowerASCII ch, lutDec_toUpperASCII ch⟩⟩

end Sys2Proof

/-!
### ENC and the pair of characters

SUPPORT. The characters of a byte (41_encoder.md rule R100), the words of ENC and of the DEC that answers it, and what
each of the two commands does to them (rules R101 and R102).
-/
namespace Sys2Proof
open Machine

theorem encode_enc (b : Byte) : encode (.enc b) = 0x10000000 ||| b.setWidth 32 := by
  simp [encode, opcode, operandBits, lanes_zero, setWidth_zext16]

/-- The two lanes of a DATA field, as the operands of a DEC, are that DATA in the word. -/
theorem encode_dec_lanes (d : Data) : encode (.dec (lane0 d) (lane1 d)) = 0x20000000 ||| d.setWidth 32 := by
  rw [encode, opcode, operandBits, lanes_lane1_lane0]
  rfl

namespace Machine

theorem exec_enc (b : Byte) (s : State) : exec (.enc b) s =
    .next (respond (rspOk 0x1 (lanes (lutEnc (lowNibble b) s.caseMode) (lutEnc (highNibble b) s.caseMode))) s) := by
  rw [exec, execEnc, encPair_char0, encPair_char1, completeOk]

/-- Rule R102 law 2: the two characters tell the two nibbles, and these the byte. -/
theorem encPair_injective {b b' : Byte} {m : CaseMode} (h : encPair b m = encPair b' m) : b = b' := by
  have hhigh : highNibble b = highNibble b' :=
    lutEnc_injective (m := m) (by rw [← encPair_char0, h, encPair_char0])
  have hlow : lowNibble b = lowNibble b' :=
    lutEnc_injective (m := m) (by rw [← encPair_char1, h, encPair_char1])
  rw [← join_nibbles b, hhigh, hlow, join_nibbles]

/-- Rules R85 law 1 and R111: DEC joins the nibbles whose characters it is given. -/
theorem exec_dec_lutEnc (n0 n1 : Nibble) (m : CaseMode) (s : State) :
    exec (.dec (lutEnc n0 m) (lutEnc n1 m)) s = .next (respond (rspOk 0x2 (zext16 (joinNibbles n0 n1))) s) := by
  have hok : (decPair (lutEnc n0 m) (lutEnc n1 m)).ok = true := by
    rw [decPair_ok, lutDec_lutEnc, lutDec_lutEnc, Bool.and_self]
  rw [exec, execDec, if_pos hok, decPair_byteOut _ _ hok, lutDec_lutEnc, lutDec_lutEnc, completeOk]

/-- Rule R102 law 3: the DEC of the two characters of a byte answers the byte. -/
theorem accept_dec_of_enc_data (b : Byte) (m : CaseMode) (s : State) :
    accept (0x20000000 ||| (lanes (lutEnc (lowNibble b) m) (lutEnc (highNibble b) m)).setWidth 32) s =
      .next (respond (rspOk 0x2 (zext16 b)) s) := by
  rw [← encode_dec_lanes, accept_of_decode (decode_encode _), lane0_lanes, lane1_lanes, exec_dec_lutEnc, join_nibbles]

end Machine

end Sys2Proof

/-!
### The statements of 41_encoder.md

SUPPORT. The statements of 41_encoder.md: what ENC answers (rule R101) and its laws (rules R100 and R102).
-/
namespace Sys2Proof
open Machine

/-- Settles O30: ENC always succeeds, and its row of rule R64 holds its words alone. -/
theorem encAnswers : Obligations.EncAnswers := by
  unfold Obligations.EncAnswers
  refine ⟨exec_enc, fun b => ?_, fun s w hop hrow => ?_⟩
  · rw [← encode_enc, decode_encode]
  · exact accept_of_cmdOp_of_not_row (i := .enc 0) hop hrow s

/-- Settles O36: each lane is the lookup of one nibble, which DEC's reverse lookup takes back. -/
theorem encLaws : Obligations.EncLaws := by
  unfold Obligations.EncLaws
  refine ⟨fun b s => ⟨_, exec_enc b s, ?_⟩, fun _ _ _ => encPair_injective,
    fun b m => ⟨encPair_char0 b m, encPair_char1 b m⟩⟩
  rw [respond_rsp, rspData_rspOk, lane0_lanes, lane1_lanes]
  exact ⟨lutEnc_mem_alphabet _ _, lutEnc_mem_alphabet _ _, _, accept_dec_of_enc_data b s.caseMode _, rfl⟩

end Sys2Proof

/-!
### DEC and the pairs of a byte

SUPPORT. The word of DEC and what it does to every pair of characters (42_decoder.md rules R110 and R111), the spellings
of a nibble, and the pairs that decode to a byte (rule R112 point 4).
-/
namespace Sys2Proof
open Machine

namespace Machine

theorem setWidth_lanes (l1 l0 : Byte) : (lanes l1 l0).setWidth 32 = l1.setWidth 32 <<< 8 ||| l0.setWidth 32 := by
  apply BitVec.eq_of_toNat_eq
  rw [BitVec.toNat_setWidth_of_le (by omega), toNat_lanes, toNat_shiftLeft_or l1 l0 l0.isLt (by omega)]

end Machine

theorem encode_dec (c0 c1 : Byte) :
    encode (.dec c0 c1) = 0x20000000 ||| c1.setWidth 32 <<< 8 ||| c0.setWidth 32 := by
  rw [encode, opcode, operandBits, setWidth_lanes, BitVec.or_assoc]
  rfl

namespace Machine

/-! #### What DEC answers -/

theorem decPair_ok_iff (c0 c1 : Byte) :
    (decPair c0 c1).ok = true ↔ (lutDec c0).valid = true ∧ (lutDec c1).valid = true := by
  rw [decPair_ok, Bool.and_eq_true]

/-- Rule R111: DEC answers by the two reverse lookups alone. -/
theorem exec_dec (c0 c1 : Byte) (s : State) : exec (.dec c0 c1) s = .next (respond
    (if (lutDec c0).valid = true ∧ (lutDec c1).valid = true then
      rspOk 0x2 (zext16 (joinNibbles (lutDec c0).nib (lutDec c1).nib))
    else rspInvalidChar 0x2 (errMask (lutDec c0).valid (lutDec c1).valid)) s) := by
  by_cases hok : (decPair c0 c1).ok = true
  · rw [exec, execDec, if_pos hok, decPair_byteOut c0 c1 hok, if_pos ((decPair_ok_iff c0 c1).1 hok), completeOk]
  · rw [exec, execDec, if_neg hok, if_neg (mt (decPair_ok_iff c0 c1).2 hok), raiseInvalidChar, decPair_valid0,
      decPair_valid1]

theorem exec_dec_congr {c0 c1 d0 d1 : Byte} (h0 : lutDec d0 = lutDec c0) (h1 : lutDec d1 = lutDec c1) (s : State) :
    exec (.dec d0 d1) s = exec (.dec c0 c1) s := by
  rw [exec_dec, exec_dec, h0, h1]

/-! #### The byte of a pair -/

theorem toNat_joinNibbles (n0 n1 : Nibble) : (joinNibbles n0 n1).toNat = n0.toNat * 16 + n1.toNat :=
  toNat_shiftLeft_or n0 n1 n1.isLt (by omega)

theorem joinNibbles_eq_iff (n0 n1 : Nibble) (b : Byte) :
    joinNibbles n0 n1 = b ↔ n0 = highNibble b ∧ n1 = lowNibble b := by
  constructor
  · rintro rfl
    exact ⟨(highNibble_join n0 n1).symm, (lowNibble_join n0 n1).symm⟩
  · rintro ⟨rfl, rfl⟩
    exact join_nibbles b

/-- Rule R110: the byte is 0x00 unless both characters are valid. -/
theorem decPair_byteOut_of_not_ok (c0 c1 : Byte) (h : ¬ (decPair c0 c1).ok = true) : (decPair c0 c1).byteOut = 0 :=
  if_neg h

theorem LutDecOut.eq_mk_iff (o : LutDecOut) (v : Bool) (n : Nibble) : o = ⟨v, n⟩ ↔ o.valid = v ∧ o.nib = n := by
  cases o
  rw [LutDecOut.mk.injEq]

/-- A pair is decoded to a byte when its characters are looked up as the byte's two nibbles. -/
theorem decPair_eq_byte_iff (c0 c1 : Byte) (b : Byte) :
    (decPair c0 c1).ok = true ∧ (decPair c0 c1).byteOut = b ↔
      lutDec c0 = ⟨true, highNibble b⟩ ∧ lutDec c1 = ⟨true, lowNibble b⟩ := by
  have hbyte (hok : (decPair c0 c1).ok = true) : (decPair c0 c1).byteOut = b ↔
      (lutDec c0).nib = highNibble b ∧ (lutDec c1).nib = lowNibble b := by
    rw [decPair_byteOut c0 c1 hok, joinNibbles_eq_iff]
  rw [and_congr_right hbyte, decPair_ok_iff, LutDecOut.eq_mk_iff, LutDecOut.eq_mk_iff, and_and_and_comm]

/-! #### The spellings of a nibble -/

/-- The characters the reverse lookup takes to the nibble `n`: its character in each mode. -/
def spellings (n : Nibble) : List Byte := [lutEnc n .lower, lutEnc n .upper].dedup

/-- Rules R82 and R85 law 2: those two characters and no others are looked up as the nibble. -/
theorem mem_spellings (n : Nibble) (ch : Byte) : ch ∈ spellings n ↔ lutDec ch = ⟨true, n⟩ := by
  rw [spellings, List.mem_dedup, List.mem_pair]
  constructor
  · rintro (rfl | rfl)
    · exact lutDec_lutEnc n .lower
    · exact lutDec_lutEnc n .upper
  · intro hdec
    have hhex : isHexDigit ch := (lutDec_valid_iff_isHexDigit ch).1 (by rw [hdec])
    simpa only [hdec] using eq_lutEnc_of_isHexDigit hhex

/-- Rule R86: a letter has two spellings, a digit one. -/
theorem length_spellings (n : Nibble) : (spellings n).length = if 10 ≤ n then 2 else 1 := by
  split
  case isTrue hletter =>
    have hne : lutEnc n .lower ≠ lutEnc n .upper := mt (lutEnc_lower_eq_upper_iff n).1 (by bv_omega)
    rw [spellings, List.dedup_cons_of_notMem (List.mem_singleton.not.2 hne)]
    rfl
  case isFalse hdigit =>
    rw [spellings, (lutEnc_lower_eq_upper_iff n).2 (by bv_omega), List.dedup_cons_of_mem (List.mem_singleton_self _)]
    rfl

/-- The pairs DEC decodes to the byte `b`: a spelling of each of its nibbles. -/
def spellingPairs (b : Byte) : List (Byte × Byte) := spellings (highNibble b) ×ˢ spellings (lowNibble b)

theorem nodup_spellingPairs (b : Byte) : (spellingPairs b).Nodup :=
  (List.nodup_dedup _).product (List.nodup_dedup _)

theorem mem_spellingPairs (b : Byte) (p : Byte × Byte) :
    p ∈ spellingPairs b ↔ (decPair p.1 p.2).ok = true ∧ (decPair p.1 p.2).byteOut = b := by
  rw [spellingPairs, List.mem_product, mem_spellings, mem_spellings, decPair_eq_byte_iff]

theorem length_spellingPairs (b : Byte) : (spellingPairs b).length =
    (if 10 ≤ highNibble b then 2 else 1) * (if 10 ≤ lowNibble b then 2 else 1) := by
  rw [spellingPairs, List.length_product, length_spellings, length_spellings]

end Machine

end Sys2Proof

/-!
### The statements of 42_decoder.md

SUPPORT. The statements of 42_decoder.md: what DEC answers (rules R110 and R111) and its laws (rule R112).
-/
namespace Sys2Proof
open Machine

/-- Settles O31: by the two valid bits; DEC's row of rule R64 holds its words alone. -/
theorem decAnswers : Obligations.DecAnswers := by
  unfold Obligations.DecAnswers
  refine ⟨fun c0 c1 s => ?_, fun c0 c1 => ?_, fun s w hop hrow => ?_⟩
  · rw [exec_dec]
    cases (lutDec c0).valid <;> cases (lutDec c1).valid <;> rfl
  · rw [← encode_dec, decode_encode]
  · exact accept_of_cmdOp_of_not_row (i := .dec 0 0) hop hrow s

/-- Settles O37: STATUS by the branch DEC takes, and folding because the reverse lookup does not see it. -/
theorem decLaws : Obligations.DecLaws := by
  unfold Obligations.DecLaws
  intro s c0 c1
  refine ⟨⟨_, exec_dec c0 c1 s, ?_⟩, exec_dec_congr (lutDec_toUpperASCII c0) (lutDec_toUpperASCII c1) s,
    exec_dec_congr (lutDec_toLowerASCII c0) (lutDec_toLowerASCII c1) s⟩
  rw [← lutDec_valid_iff_mem_acceptedAlphabet, ← lutDec_valid_iff_mem_acceptedAlphabet, respond_rsp]
  split
  case isTrue hvalid    => exact iff_of_true (rspStatus_rspWord _ _ _ _) hvalid
  case isFalse hinvalid => exact iff_of_false (by rw [rspInvalidChar, rspStatus_rspWord]; decide) hinvalid

/-- Settles O38: the byte by whether both characters are valid; the pairs of a byte are the product of the spellings of
its nibbles, counted by whether each nibble is a letter. -/
theorem spellingsOfAByte : Obligations.SpellingsOfAByte := by
  unfold Obligations.SpellingsOfAByte
  refine ⟨fun c0 c1 => ⟨decPair_valid0 c0 c1, decPair_valid1 c0 c1, decPair_ok_iff c0 c1, ?_⟩,
    fun b => ⟨spellingPairs b, nodup_spellingPairs b, mem_spellingPairs b, ?_⟩⟩
  · split
    case isTrue hvalid    => rw [decPair_byteOut c0 c1 ((decPair_ok_iff c0 c1).2 hvalid), toNat_joinNibbles]
    case isFalse hinvalid => rw [decPair_byteOut_of_not_ok c0 c1 (mt (decPair_ok_iff c0 c1).1 hinvalid)]; rfl
  · rw [length_spellingPairs]
    by_cases hhigh : 10 ≤ highNibble b <;> by_cases hlow : 10 ≤ lowNibble b <;>
      simp only [hhigh, hlow, if_true, if_false, and_self, or_self, and_true, and_false, or_true, true_or]

end Sys2Proof

/-!
### Runs

SUPPORT. The edge that the first entry of the inputs gives, its part in a run of edges and in what a host captures
(43_control.md rules R125 and R126), the answers of SETCASE and GETCASE (rules R121 and R122), and the words of the control
commands (rules R64 and R123).
-/
namespace Sys2Proof
open Machine

namespace Machine

/-! #### One edge -/

theorem step_of_inputs {s : State} {p : PortIn} {rest : List PortIn} (h : s.inputs = p :: rest) :
    step s = edge p { s with inputs := rest } := by
  simp only [step, clockEdge, sample, afterSample, h, List.tail_cons]

/-- With no reset an edge either accepts the word on the port or is idle. -/
theorem port_of_not_rst {p : PortIn} (h : p.rst = false) : p = commandIn p.cmd ∨ p = ⟨false, false, p.cmd⟩ := by
  obtain ⟨rst, valid, w⟩ := p
  subst h
  cases valid with
  | true  => exact .inl rfl
  | false => exact .inr rfl

/-- Every edge answers and takes one entry of the inputs. -/
theorem step_takes_input (s : State) : ∃ t, step s = .next t ∧ t.inputs = s.inputs.tail := by
  obtain ⟨-, hstep⟩ | ⟨-, -, hstep⟩ | ⟨-, -, hstep⟩ := step_cases s
  · exact ⟨_, hstep, rfl⟩
  · exact ⟨_, hstep, rfl⟩
  · exact ⟨_, hstep, rfl⟩

theorem step_reset (s : State) (v : Bool) (w : Word32) (rest : List PortIn) :
    step { s with inputs := resetIn v w :: rest } = .next (resetEdge { s with inputs := rest }) := rfl

/-- An edge with `rst` = 0 and `cmd_valid` = 0 is idle, whatever stands on the command port. -/
theorem step_idle (s : State) (w : Word32) (rest : List PortIn) :
    step { s with inputs := ⟨false, false, w⟩ :: rest } = .next (idleEdge { s with inputs := rest }) := rfl

/-! #### Edges in a row -/

theorem edges_succ_of_step {s t : State} (h : step s = .next t) (k : Nat) : edges (k + 1) s = edges k t := by
  rw [edges_succ, h, andThen_next]

/-- The host sees the response of the first edge, if it gives one, before those of the later edges. -/
theorem responses_succ_of_step {s t : State} (h : step s = .next t) (k : Nat) :
    responses (k + 1) s = (capture t).toList ++ responses k t := by
  simp only [responses, h]

/-- No run stops, and each of its edges takes one entry of the inputs. -/
theorem edges_take_inputs (k : Nat) (s : State) : ∃ t, edges k s = .next t ∧ t.inputs = s.inputs.drop k := by
  induction k generalizing s with
  | zero => exact ⟨s, rfl, rfl⟩
  | succ k ih =>
    obtain ⟨u, hstep, hu⟩ := step_takes_input s
    obtain ⟨t, hedges, ht⟩ := ih u
    exact ⟨t, (edges_succ_of_step hstep k).trans hedges, by rw [ht, hu, List.drop_tail]⟩

/-- A command that follows another with no spacing runs in the state the first one left. -/
theorem edges_two_commands (s : State) (w₁ w₂ : Word32) (rest : List PortIn) :
    edges 2 { s with inputs := commandIn w₁ :: commandIn w₂ :: rest } =
      .next (afterCommand w₂ (afterCommand w₁ { s with inputs := rest })) := by
  rw [edges_succ_of_step (step_command s w₁ _), afterCommand_withInputs, edges_succ_of_step (step_command _ w₂ rest)]
  rfl

theorem edges_reset_command (s : State) (v : Bool) (w₁ w₂ : Word32) (rest : List PortIn) :
    edges 2 { s with inputs := resetIn v w₁ :: commandIn w₂ :: rest } =
      .next (afterCommand w₂ { State.reset with inputs := rest }) := by
  rw [edges_succ_of_step (step_reset s v w₁ _), resetEdge, edges_succ_of_step (step_command _ w₂ rest)]
  rfl

/-! #### The commands -/

theorem acceptedCommands_command (w : Word32) (ps : List PortIn) :
    acceptedCommands (commandIn w :: ps) = w :: acceptedCommands ps := rfl

theorem acceptedCommands_idle (w : Word32) (ps : List PortIn) :
    acceptedCommands (⟨false, false, w⟩ :: ps) = acceptedCommands ps := rfl

theorem transact_encode_setcase (c m : CaseMode) :
    transact c (encode (.setcase m)) = (m, rspWord 0x3 .ok 0b00 (zext16 m.bit)) := by
  rw [transact, decode_encode]

theorem transact_encode_getcase (c : CaseMode) :
    transact c (encode .getcase) = (c, rspWord 0x4 .ok 0b00 (zext16 c.bit)) := by
  rw [transact, decode_encode]

/-- Rule R122: the response of GETCASE is its OP above the bit of CASE. -/
theorem rspOk_getcase (c : CaseMode) :
    rspOk 0x4 (zext16 c.bit) = if c = .lower then 0x40000000 else 0x40000001 := by
  cases c <;> rfl

end Machine

/-! #### The words of a row -/

/-- Rules R64 and R123: a word with the OP of a command that is no word of its row is ILLEGAL_CMD. -/
theorem accept_of_notMem_rowWords {i : Instr} {w : Word32} (hop : cmdOp w = opcode i) (h : w ∉ rowWords i) (s : State) :
    accept w s = .next (respond (rspWord (opcode i) .illegalCmd 0 0) s) :=
  accept_of_cmdOp_of_not_row hop (fun heq => h ((mem_rowWords i w).2 (beq_iff_eq.2 heq))) s

theorem rowWords_nop : rowWords .nop = [0x00000000] := rfl

theorem rowWords_setcase (m : CaseMode) : rowWords (.setcase m) = [0x30000000, 0x30000001] := by
  simp [rowWords, opcode, operandWidth, List.range']

theorem rowWords_getcase : rowWords .getcase = [0x40000000] := rfl

end Sys2Proof

/-!
### The statements of 43_control.md

SUPPORT. The statements of 43_control.md: the three steps of an edge (rule R125), runs of edges (rule R126), and the
commands NOP, SETCASE and GETCASE (rules R120 to R123).
-/
namespace Sys2Proof
open Machine

/-- Settles O4: by the two control bits at the ports; the accept step is rule R124's. -/
theorem edgeTakesOneOfThreeSteps : Obligations.EdgeTakesOneOfThreeSteps := by
  unfold Obligations.EdgeTakesOneOfThreeSteps
  intro s rest rst cmdValid cmd hinputs
  refine ⟨?_, rfl⟩
  rw [step_of_inputs hinputs]
  cases rst with
  | true  => rfl
  | false =>
    cases cmdValid with
    | true  => exact accept_eq_afterCommand cmd { s with inputs := rest }
    | false => rfl

/-- Settles O5: such an edge is the accept step, which runs the command the word decodes to. -/
theorem stepRunsTheDecodedCommand : Obligations.StepRunsTheDecodedCommand := by
  unfold Obligations.StepRunsTheDecodedCommand
  intro s w rest i hinputs hdecode
  rw [step_of_inputs hinputs, ← accept_of_decode hdecode]
  exact edge_command w _

/-- Settles O6: by induction on the edges, each of which answers; the host's run is the model's. -/
theorem blockNeverStops : Obligations.BlockNeverStops := by
  unfold Obligations.BlockNeverStops
  intro k s
  obtain ⟨t, hedges, hinputs⟩ := edges_take_inputs k s
  exact ⟨t, hedges, (core_run_eq_edges k s).trans hedges, hinputs⟩

/-- Settles O7: by induction on the edges; a command's edge is one step of the fold, and an idle edge changes neither the
fold nor CASE and gives no response. -/
theorem responsesAreTheFoldOfExec : Obligations.ResponsesAreTheFoldOfExec := by
  unfold Obligations.ResponsesAreTheFoldOfExec
  intro s ps rest hrst
  induction ps generalizing s with
  | nil => exact ⟨rfl, _, rfl, rfl, rfl⟩
  | cons p ps ih =>
    obtain ⟨hp, hps⟩ := List.forall_mem_cons.1 hrst
    rw [List.length_cons, List.cons_append]
    obtain hcommand | hidle := port_of_not_rst hp
    · obtain ⟨hresponses, hrun⟩ := ih (afterCommand p.cmd s) hps
      rw [hcommand, acceptedCommands_command, transactAll_cons, responses_succ_command,
        edges_succ_of_step (step_command s p.cmd _), afterCommand_withInputs, hresponses]
      exact ⟨rfl, hrun⟩
    · have hstep := step_idle s p.cmd (ps ++ rest)
      rw [hidle, acceptedCommands_idle, responses_succ_of_step hstep, edges_succ_of_step hstep]
      exact ih (idleEdge s) hps

/-- Settles O29: NOP always succeeds, and its row of rule R64 is one word. -/
theorem nopAnswers : Obligations.NopAnswers := by
  unfold Obligations.NopAnswers
  refine ⟨fun s => rfl, decode_encode .nop, fun s w hop hne => accept_of_notMem_rowWords (i := .nop) hop ?_ s⟩
  rwa [rowWords_nop, List.mem_singleton]

/-- Settles O32: the second of two edges finds the CASE the first wrote; SETCASE's row of rule R64 is two words. -/
theorem setcaseAnswers : Obligations.SetcaseAnswers := by
  unfold Obligations.SetcaseAnswers
  refine ⟨fun m s => by cases m <;> rfl, decode_encode (.setcase .lower), decode_encode (.setcase .upper),
    fun m s w rest => ⟨_, edges_two_commands s _ w rest, ?_⟩,
    fun s w hop hlower hupper => accept_of_notMem_rowWords (i := .setcase .lower) hop ?_ s⟩
  · rw [afterCommand_rsp, afterCommand_caseMode, transact_encode_setcase]
  · rw [rowWords_setcase, List.mem_pair, not_or]
    exact ⟨hlower, hupper⟩

/-- Settles O33: DATA is the bit of CASE, which reset makes 0; GETCASE's row of rule R64 is one word. -/
theorem getcaseAnswers : Obligations.GetcaseAnswers := by
  unfold Obligations.GetcaseAnswers
  refine ⟨fun s => ?_, decode_encode .getcase, fun s v w rest => ⟨_, edges_reset_command s v w _ rest, ?_⟩,
    fun s w hop hne => accept_of_notMem_rowWords (i := .getcase) hop ?_ s⟩
  · rw [← rspOk_getcase]
    rfl
  · exact congrArg Prod.snd (transact_encode_getcase .lower)
  · rwa [rowWords_getcase, List.mem_singleton]

end Sys2Proof

/-!
### Decoded texts

SUPPORT. What decoding a text gives, pair by pair (20_memory.md rule R43, 44_buffer_ops.md rules R143 to R145): the
count when no pair fails, the pair it stops at, the pair each byte comes from; it reads the characters through the
reverse lookup alone, and takes back the text that encoding gives.
-/
namespace Sys2Proof.Machine

theorem decodeText_short (pos : Nat) {cs : List Byte} (h : cs.length < 2) : decodeText pos cs = ⟨[], none⟩ := by
  match cs with
  | []            => rfl
  | [_]           => rfl
  | _ :: _ :: cs' => simp only [List.length_cons] at h; omega

section
variable {c0 c1 : Byte} (pos : Nat) (rest : List Byte)

theorem decodeText_valid (h0 : (lutDec c0).valid = true) (h1 : (lutDec c1).valid = true) :
    decodeText pos (c0 :: c1 :: rest) =
      ⟨joinNibbles (lutDec c0).nib (lutDec c1).nib :: (decodeText (pos + 2) rest).bytes,
        (decodeText (pos + 2) rest).invalid⟩ := by
  rw [decodeText, if_pos h0, if_pos h1]

/-- Rule R145: the position of a failing pair is that of its first invalid character. -/
theorem decodeText_invalid (h : ((lutDec c0).valid && (lutDec c1).valid) = false) :
    decodeText pos (c0 :: c1 :: rest) = ⟨[], some (if (lutDec c0).valid then pos + 1 else pos)⟩ := by
  cases h0 : (lutDec c0).valid with
  | false => simp [decodeText, h0]
  | true  =>
    have h1 : (lutDec c1).valid = false := by rwa [h0, Bool.true_and] at h
    simp [decodeText, h0, h1]

end

/-- Induction over a text as decoding reads it: its end, a pair it decodes, a pair it stops at. -/
theorem decodeText_induction {P : Nat → List Byte → Prop}
    (short : ∀ pos cs, cs.length < 2 → P pos cs)
    (valid : ∀ pos c0 c1 rest, (lutDec c0).valid = true → (lutDec c1).valid = true → P (pos + 2) rest →
      P pos (c0 :: c1 :: rest))
    (invalid : ∀ pos c0 c1 rest, ((lutDec c0).valid && (lutDec c1).valid) = false → P pos (c0 :: c1 :: rest))
    (pos : Nat) (cs : List Byte) : P pos cs := by
  induction pos, cs using decodeText.induct with
  | case1 pos c0 c1 rest h0 h1 ih => exact valid pos c0 c1 rest h0 h1 ih
  | case2 pos c0 c1 rest h0 h1 =>
    exact invalid pos c0 c1 rest (by rw [Bool.eq_false_of_not_eq_true h1, Bool.and_false])
  | case3 pos c0 c1 rest h0 =>
    exact invalid pos c0 c1 rest (by rw [Bool.eq_false_of_not_eq_true h0, Bool.false_and])
  | case4 pos c => exact short pos [c] Nat.one_lt_two
  | case5 pos => exact short pos [] Nat.two_pos

/-- Rules R144 and R148: without a failing pair every complete pair gives a byte. -/
theorem length_decodeText_of_none {pos : Nat} {cs : List Byte} (h : (decodeText pos cs).invalid = none) :
    (decodeText pos cs).bytes.length = cs.length / 2 := by
  induction pos, cs using decodeText_induction with
  | short pos cs hcs => rw [decodeText_short pos hcs, Nat.div_eq_of_lt hcs]; rfl
  | valid pos c0 c1 rest h0 h1 ih =>
    rw [decodeText_valid pos rest h0 h1] at h ⊢
    rw [List.length_cons, ih h, List.length_cons, List.length_cons]
    omega
  | invalid pos c0 c1 rest hv =>
    rw [decodeText_invalid pos rest hv] at h
    cases h

/-- Rule R145: decoding stops at the first pair with an invalid character, and at the first such character of it. -/
theorem decodeText_stop {pos p : Nat} {cs : List Byte} (h : (decodeText pos cs).invalid = some p) :
    ∃ c0 c1, cs[2 * (decodeText pos cs).bytes.length]? = some c0 ∧
      cs[2 * (decodeText pos cs).bytes.length + 1]? = some c1 ∧
      ((lutDec c0).valid = false ∧ p = pos + 2 * (decodeText pos cs).bytes.length ∨
        (lutDec c0).valid = true ∧ (lutDec c1).valid = false ∧ p = pos + 2 * (decodeText pos cs).bytes.length + 1) := by
  induction pos, cs using decodeText_induction with
  | short pos cs hcs =>
    rw [decodeText_short pos hcs] at h
    cases h
  | valid pos c0 c1 rest h0 h1 ih =>
    rw [decodeText_valid pos rest h0 h1] at h ⊢
    obtain ⟨d0, d1, hd0, hd1, hstop⟩ := ih h
    refine ⟨d0, d1, hd0, hd1, ?_⟩
    rw [List.length_cons]
    obtain ⟨hv, hp⟩ | ⟨hv0, hv1, hp⟩ := hstop
    · exact .inl ⟨hv, by omega⟩
    · exact .inr ⟨hv0, hv1, by omega⟩
  | invalid pos c0 c1 rest hv =>
    rw [decodeText_invalid pos rest hv] at h ⊢
    refine ⟨c0, c1, rfl, rfl, ?_⟩
    cases h0 : (lutDec c0).valid with
    | false => rw [h0] at h; cases h; exact .inl ⟨rfl, rfl⟩
    | true  => rw [h0] at h hv; cases h; exact .inr ⟨rfl, hv, rfl⟩

/-- Rule R143: byte i is the byte of the characters 2i and 2i + 1, both of them valid. -/
theorem decodeText_getElem? {pos i : Nat} {cs : List Byte} {b : Byte} (h : (decodeText pos cs).bytes[i]? = some b) :
    ∃ c0 c1, cs[2 * i]? = some c0 ∧ cs[2 * i + 1]? = some c1 ∧ (lutDec c0).valid = true ∧ (lutDec c1).valid = true ∧
      b = joinNibbles (lutDec c0).nib (lutDec c1).nib := by
  induction pos, cs using decodeText_induction generalizing i with
  | short pos cs hcs =>
    rw [decodeText_short pos hcs] at h
    cases h
  | valid pos c0 c1 rest h0 h1 ih =>
    rw [decodeText_valid pos rest h0 h1] at h
    cases i with
    | zero   => cases h; exact ⟨c0, c1, rfl, rfl, h0, h1, rfl⟩
    | succ i => exact ih h
  | invalid pos c0 c1 rest hv =>
    rw [decodeText_invalid pos rest hv] at h
    cases h

/-- Every character of a decoded pair is in the accepted alphabet. -/
theorem accepted_of_lt_decoded {pos i : Nat} {cs : List Byte} (h : i < 2 * (decodeText pos cs).bytes.length) :
    ∃ c, cs[i]? = some c ∧ c ∈ acceptedAlphabet := by
  have hhalf : i / 2 < (decodeText pos cs).bytes.length := by omega
  obtain ⟨c0, c1, h0, h1, hv0, hv1, -⟩ := decodeText_getElem? (List.getElem?_eq_getElem hhalf)
  obtain heven | hodd : i = 2 * (i / 2) ∨ i = 2 * (i / 2) + 1 := by omega
  · exact ⟨c0, heven ▸ h0, (lutDec_valid_iff_mem_acceptedAlphabet c0).1 hv0⟩
  · exact ⟨c1, hodd ▸ h1, (lutDec_valid_iff_mem_acceptedAlphabet c1).1 hv1⟩

theorem notMem_acceptedAlphabet_of_invalid {ch : Byte} (h : (lutDec ch).valid = false) : ch ∉ acceptedAlphabet := by
  rw [← lutDec_valid_iff_mem_acceptedAlphabet, h]
  exact Bool.false_ne_true

/-- The pair decoding stops at lies within the text, and what stands before the position is accepted. -/
theorem decodeText_position {p : Nat} {cs : List Byte} (h : (decodeText 0 cs).invalid = some p) :
    p / 2 = (decodeText 0 cs).bytes.length ∧ p < 2 * (cs.length / 2) ∧
      (∃ c, cs[p]? = some c ∧ c ∉ acceptedAlphabet) ∧ ∀ i, i < p → ∃ c, cs[i]? = some c ∧ c ∈ acceptedAlphabet := by
  obtain ⟨c0, c1, h0, h1, hstop⟩ := decodeText_stop h
  obtain ⟨hlen, -⟩ := List.getElem?_eq_some_iff.1 h1
  obtain ⟨hv0, hp⟩ | ⟨hv0, hv1, hp⟩ := hstop
  · rw [Nat.zero_add] at hp
    subst hp
    exact ⟨by omega, by omega, ⟨c0, h0, notMem_acceptedAlphabet_of_invalid hv0⟩, fun i hi => accepted_of_lt_decoded hi⟩
  · rw [Nat.zero_add] at hp
    subst hp
    refine ⟨by omega, by omega, ⟨c1, h1, notMem_acceptedAlphabet_of_invalid hv1⟩, fun i hi => ?_⟩
    obtain hbefore | rfl := Nat.lt_succ_iff_lt_or_eq.1 hi
    · exact accepted_of_lt_decoded hbefore
    · exact ⟨c0, h0, (lutDec_valid_iff_mem_acceptedAlphabet c0).1 hv0⟩

/-- Rule R149 point 3's premise: a text whose complete pairs are all of the accepted alphabet decodes to its end. -/
theorem decodeText_invalid_of_completePairs {cs : List Byte} (h : ∀ c ∈ completePairs cs, c ∈ acceptedAlphabet) :
    (decodeText 0 cs).invalid = none := by
  cases hinv : (decodeText 0 cs).invalid with
  | none   => rfl
  | some p =>
    obtain ⟨-, hp, ⟨c, hc, hnot⟩, -⟩ := decodeText_position hinv
    have hmem : (completePairs cs)[p]? = some c := (List.getElem?_take_of_lt hp).trans hc
    exact absurd (h c (List.mem_of_getElem? hmem)) hnot

/-- Decoding sees a character through the reverse lookup alone (rule R149 point 2). -/
theorem decodeText_map {f : Byte → Byte} (hf : ∀ ch, lutDec (f ch) = lutDec ch) (pos : Nat) (cs : List Byte) :
    decodeText pos (cs.map f) = decodeText pos cs := by
  induction pos, cs using decodeText_induction with
  | short pos cs hcs => rw [decodeText_short pos hcs, decodeText_short pos (by rwa [List.length_map])]
  | valid pos c0 c1 rest h0 h1 ih =>
    rw [List.map_cons, List.map_cons, decodeText_valid pos _ ((hf c0).symm ▸ h0) ((hf c1).symm ▸ h1), hf, hf, ih,
      decodeText_valid pos rest h0 h1]
  | invalid pos c0 c1 rest hv =>
    rw [List.map_cons, List.map_cons, decodeText_invalid pos _ (by rwa [hf, hf]), hf, decodeText_invalid pos rest hv]

/-- Rule R149 point 1 on texts: decoding takes back what encoding gives, under either CASE. -/
theorem decodeText_encodeText (m : CaseMode) (pos : Nat) (bs : List Byte) :
    decodeText pos (encodeText m bs) = ⟨bs, none⟩ := by
  induction bs generalizing pos with
  | nil          => rfl
  | cons b bs ih =>
    have hvalid (n : Nibble) : (lutDec (lutEnc n m)).valid = true := by rw [lutDec_lutEnc]
    rw [encodeText_cons, decodeText_valid pos _ (hvalid _) (hvalid _), ih, lutDec_lutEnc, lutDec_lutEnc, join_nibbles]

/-- Rule R149 point 4 on texts. -/
theorem mem_alphabet_of_mem_encodeText {m : CaseMode} {bs : List Byte} {c : Byte} (h : c ∈ encodeText m bs) :
    c ∈ alphabet m := by
  obtain ⟨b, -, hc⟩ := List.mem_flatMap.1 h
  obtain rfl | rfl := List.mem_pair.1 hc
  · exact lutEnc_mem_alphabet (highNibble b) m
  · exact lutEnc_mem_alphabet (lowNibble b) m

end Sys2Proof.Machine

/-!
### Calls of operations

SUPPORT. A whole call run alone (44_buffer_ops.md rules R142, R143 and R146): how it starts, where each edge of its loop
leaves it, how it ends and what it gives its caller; and that no edge of it changes CASE or the inputs to come.
-/
namespace Sys2Proof.Machine

/-! #### The start of a call -/

theorem opStart_short {k : OpKind} {src dst : Buffer} (hover : bufOverlap src dst = false)
    (hroom : bufLen dst < opNeeded k (bufLen src)) :
    opStart k src dst = .fault (.bufferTooSmall (opNeeded k (bufLen src)) (bufLen dst)) := by
  rw [opStart, hover, if_neg Bool.false_ne_true, if_pos hroom]

/-- Rules R140, R150 and R163: beside others a call with too little room adds an operation ended by its fault. -/
theorem sysStep_call_short {k : OpKind} {src dst : Buffer} (hover : bufOverlap src dst = false)
    (hroom : bufLen dst < opNeeded k (bufLen src)) (y : System) :
    sysStep (.call k src dst) y = .next { y with ops := y.ops ++
      [⟨k, src, dst, 0, 0, .faulted (.bufferTooSmall (opNeeded k (bufLen src)) (bufLen dst))⟩] } := by
  rw [sysStep, opCalled, opStart_short hover hroom, andThen_next, if_neg (fun h => by cases h.1)]

/-- A loop at index `i`, with `out` written to dst and `tail` still there as it was before the call; ended where no
element is left. -/
def opAt (k : OpKind) (src : Buffer) (base : Nat) (out tail : List Byte) (i : Nat) : HostOp :=
  opSettle ⟨k, src, ⟨base, out ++ tail⟩, i, i, .running⟩

theorem opStart_inside {k : OpKind} {src dst : Buffer} (hover : bufOverlap src dst = false)
    (hroom : opNeeded k (bufLen src) ≤ bufLen dst) :
    opStart k src dst = .next (opAt k src dst.base [] dst.bytes 0) := by
  rw [opStart, hover, if_neg Bool.false_ne_true, if_neg (Nat.not_lt.2 hroom)]
  rfl

theorem opCall_overlap {k : OpKind} {src dst : Buffer} (hover : bufOverlap src dst = true) (s : State) :
    opCall k src dst s = .refused .overlappingBuffers := by
  rw [opCall, opStart, if_pos hover, andThen_refused]

theorem opCall_short {k : OpKind} {src dst : Buffer} (hover : bufOverlap src dst = false)
    (hroom : bufLen dst < opNeeded k (bufLen src)) (s : State) :
    opCall k src dst s = .fault (.bufferTooSmall (opNeeded k (bufLen src)) (bufLen dst)) := by
  rw [opCall, opStart_short hover hroom, andThen_fault]

theorem opCall_inside {k : OpKind} {src dst : Buffer} (hover : bufOverlap src dst = false)
    (hroom : opNeeded k (bufLen src) ≤ bufLen dst) (s : State) :
    opCall k src dst s = opRun (opUnits k (bufLen src)) (opAt k src dst.base [] dst.bytes 0) s := by
  rw [opCall, opStart_inside hover hroom, andThen_next]

/-! #### What an edge keeps of the block -/

/-- A loop issues ENC and DEC alone, so none of its commands sets CASE. -/
theorem opCommand_ne_setcase {op : HostOp} {w : Word32} (h : opCommand op = .next w) (m : CaseMode) :
    decode w ≠ .ok (.setcase m) := by
  unfold opCommand at h
  split at h
  · obtain ⟨b, -, hw⟩ := andThen_eq_next h
    cases hw
    rw [decode_encode]
    nofun
  · obtain ⟨c0, -, h⟩ := andThen_eq_next h
    obtain ⟨c1, -, hw⟩ := andThen_eq_next h
    cases hw
    rw [decode_encode]
    nofun

/-- An edge granted to a running operation that answers issued its command and took the response. -/
theorem opEdge_running_next {op op' : HostOp} {s t : State} (hrun : op.status = .running)
    (h : opEdge op s = .next (op', t)) :
    ∃ w, opCommand op = .next w ∧ opTake op (transact s.caseMode w).2 = .next op' ∧ t = afterCommand w s := by
  have hw : ∃ w, opCommand op = .next w := by
    rw [opEdge, if_pos hrun] at h
    obtain ⟨w, hw, -⟩ := andThen_eq_next h
    exact ⟨w, hw⟩
  obtain ⟨w, hw⟩ := hw
  rw [opEdge_running hrun hw] at h
  obtain ⟨o, htake, h⟩ := andThen_eq_next h
  cases h
  exact ⟨w, hw, htake, rfl⟩

theorem opEdge_frame {op op' : HostOp} {s t : State} (h : opEdge op s = .next (op', t)) :
    t.caseMode = s.caseMode ∧ t.inputs = s.inputs := by
  by_cases hrun : op.status = .running
  · obtain ⟨w, hw, -, rfl⟩ := opEdge_running_next hrun h
    exact ⟨transact_keeps_caseMode (opCommand_ne_setcase hw) s.caseMode, rfl⟩
  · rw [opEdge_ended hrun] at h
    cases h
    exact ⟨rfl, rfl⟩

theorem opRun_succ_of_edge {op op' : HostOp} {s t : State} (hrun : op.status = .running)
    (h : opEdge op s = .next (op', t)) (fuel : Nat) : opRun (fuel + 1) op s = opRun fuel op' t := by
  rw [opRun, if_pos hrun, h, andThen_next]

theorem opRun_ended {op : HostOp} (hend : op.status ≠ .running) (fuel : Nat) (s : State) :
    opRun fuel op s = .next (op, s) := by
  cases fuel with
  | zero      => rfl
  | succ fuel => rw [opRun, if_neg hend]

theorem opRun_frame {fuel : Nat} {op op' : HostOp} {s t : State} (h : opRun fuel op s = .next (op', t)) :
    t.caseMode = s.caseMode ∧ t.inputs = s.inputs := by
  induction fuel generalizing op s with
  | zero => cases h; exact ⟨rfl, rfl⟩
  | succ fuel ih =>
    by_cases hrun : op.status = .running
    · rw [opRun, if_pos hrun] at h
      obtain ⟨⟨op₁, t₁⟩, hedge, hrest⟩ := andThen_eq_next h
      obtain ⟨hcase, hinputs⟩ := opEdge_frame hedge
      obtain ⟨hcase', hinputs'⟩ := ih hrest
      exact ⟨hcase'.trans hcase, hinputs'.trans hinputs⟩
    · rw [opRun_ended hrun] at h
      cases h
      exact ⟨rfl, rfl⟩

/-- Rules R52 and R142: a call leaves CASE and the inputs to come; with no element it takes no edge (log entry 18). -/
theorem opCall_frame {k : OpKind} {src dst : Buffer} {s t : State} {op : HostOp}
    (h : opCall k src dst s = .next (op, t)) :
    t.caseMode = s.caseMode ∧ t.inputs = s.inputs ∧ (opUnits k (bufLen src) = 0 → t = s) := by
  obtain ⟨op₀, -, hrun⟩ := andThen_eq_next h
  obtain ⟨hcase, hinputs⟩ := opRun_frame hrun
  refine ⟨hcase, hinputs, fun hnone => ?_⟩
  rw [hnone] at hrun
  cases hrun
  rfl

/-! #### The loop -/

theorem opAt_running {k : OpKind} {src : Buffer} {i : Nat} (h : i < opUnits k (bufLen src)) (base : Nat)
    (out tail : List Byte) : opAt k src base out tail i = ⟨k, src, ⟨base, out ++ tail⟩, i, i, .running⟩ := if_pos h

theorem opAt_ended {k : OpKind} {src : Buffer} {i : Nat} (h : opUnits k (bufLen src) ≤ i) (base : Nat)
    (out tail : List Byte) :
    opAt k src base out tail i = ⟨k, src, ⟨base, out ++ tail⟩, i, i, .ok (opNeeded k (bufLen src))⟩ :=
  if_neg (Nat.not_lt.2 h)

/-- Rule R142, one edge of the loop: the two characters of the byte follow what is written. -/
theorem opRun_encode_succ {src : Buffer} {i : Nat} {b : Byte} (hb : src.bytes[i]? = some b) {out : List Byte}
    (hout : out.length = 2 * i) (fuel base : Nat) (x y : Byte) (tail : List Byte) (s : State) :
    opRun (fuel + 1) (opAt .encode src base out (x :: y :: tail) i) s =
      opRun fuel (opAt .encode src base
        (out ++ [lutEnc (highNibble b) s.caseMode, lutEnc (lowNibble b) s.caseMode]) tail (i + 1))
        (afterCommand (encode (.enc b)) s) := by
  have hi : i < opUnits .encode (bufLen src) := by
    rw [opUnits, Config.bytesPerCmd, Nat.div_one]
    exact (List.getElem?_eq_some_iff.1 hb).1
  rw [opAt_running hi]
  refine opRun_succ_of_edge rfl ?_ fuel
  rw [opEdge_encode rfl rfl hb (by simp [bufLen]; omega)]
  simp [opAt, ← hout, List.set_append_right]

/-- Rule R142: the loop from index `pre.length` on writes the text of the bytes that are left. -/
theorem opRun_encode {src : Buffer} {rest : List Byte} (base : Nat) (pre out tail : List Byte) (s : State)
    (hsrc : src.bytes = pre ++ rest) (hout : out.length = 2 * pre.length) (hroom : 2 * rest.length ≤ tail.length) :
    ∃ t, opRun rest.length (opAt .encode src base out tail pre.length) s = .next
      (⟨.encode, src, ⟨base, out ++ (encodeText s.caseMode rest ++ tail.drop (2 * rest.length))⟩,
        bufLen src, bufLen src, .ok (2 * bufLen src)⟩, t) := by
  induction rest generalizing pre out tail s with
  | nil =>
    have hlen : pre.length = bufLen src := by rw [bufLen, hsrc, List.append_nil]
    refine ⟨s, ?_⟩
    rw [hlen, opAt_ended (by rw [opUnits, Config.bytesPerCmd, Nat.div_one])]
    rfl
  | cons b rest ih =>
    obtain _ | ⟨x, _ | ⟨y, tail⟩⟩ := tail
    case nil => simp at hroom
    case cons.nil => simp at hroom; omega
    case cons.cons =>
      have hb : src.bytes[pre.length]? = some b := by simp [hsrc]
      have hcase : (afterCommand (encode (.enc b)) s).caseMode = s.caseMode := by
        rw [afterCommand_caseMode, transact_encode_enc]
      obtain ⟨t, hrun⟩ := ih (pre ++ [b]) (out ++ [lutEnc (highNibble b) s.caseMode, lutEnc (lowNibble b) s.caseMode])
        tail (afterCommand (encode (.enc b)) s) (by simp [hsrc]) (by simp [hout]; omega) (by simp at hroom; omega)
      rw [hcase] at hrun
      refine ⟨t, ?_⟩
      rw [List.length_cons, opRun_encode_succ hb hout]
      simpa [Nat.mul_succ] using hrun

theorem transact_encode_dec_valid {c0 c1 : Byte} (h0 : (lutDec c0).valid = true) (h1 : (lutDec c1).valid = true)
    (c : CaseMode) : transact c (encode (.dec c0 c1)) =
      (c, rspWord 0x2 .ok 0 (zext16 (joinNibbles (lutDec c0).nib (lutDec c1).nib))) := by
  simp only [transact, decode_encode, h0, h1, Bool.and_self, if_true]

theorem transact_encode_dec_invalid {c0 c1 : Byte} (h : ((lutDec c0).valid && (lutDec c1).valid) = false)
    (c : CaseMode) : transact c (encode (.dec c0 c1)) =
      (c, rspWord 0x2 .invalidChar (errMask (lutDec c0).valid (lutDec c1).valid) 0) := by
  simp only [transact, decode_encode, h]
  rfl

theorem opTake_decode {op : HostOp} (hk : op.kind = .decode) (r : Word32) : opTake op r = takeDecode op r := by
  rw [opTake, hk]

section
variable {op : HostOp} {c0 c1 : Byte} (hk : op.kind = .decode) (hrun : op.status = .running)
  (hc0 : op.src.bytes[2 * op.idx]? = some c0) (hc1 : op.src.bytes[2 * op.idx + 1]? = some c1)
include hk hrun hc0 hc1

/-- Rule R143: an edge of a decode writes the byte of a valid pair. -/
theorem opEdge_decode_valid (h0 : (lutDec c0).valid = true) (h1 : (lutDec c1).valid = true)
    (hroom : op.idx < bufLen op.dst) (s : State) :
    opEdge op s = .next (opSettle { op with
      dst := ⟨op.dst.base, op.dst.bytes.set op.idx (joinNibbles (lutDec c0).nib (lutDec c1).nib)⟩
      idx := op.idx + 1
      issued := op.issued + 1 }, afterCommand (encode (.dec c0 c1)) s) := by
  rw [opEdge_running hrun (opCommand_decode hk hc0 hc1), transact_encode_dec_valid h0 h1, opTake_decode hk,
    takeDecode_inside (by rw [rspStatus_rspWord]; decide) hroom, andThen_next, rspData_rspWord, lane0_zext16_byte]

/-- Rule R145: an edge of a decode ends it at a pair with an invalid character, and writes nothing. -/
theorem opEdge_decode_invalid (hv : ((lutDec c0).valid && (lutDec c1).valid) = false) (s : State) :
    opEdge op s = .next ({ op with
      issued := op.issued + 1
      status := .invalidCharacter op.idx (if (lutDec c0).valid then 2 * op.idx + 1 else 2 * op.idx) },
      afterCommand (encode (.dec c0 c1)) s) := by
  rw [opEdge_running hrun (opCommand_decode hk hc0 hc1), transact_encode_dec_invalid hv, opTake_decode hk,
    takeDecode_invalid op (rspStatus_rspWord _ _ _ _), andThen_next, rspErrMask_rspWord, errMask_bit0]
  cases (lutDec c0).valid <;> rfl

end

/-- A decode that has ended with `out` written before the pair it stopped at, if it stopped at one. -/
def decodeEnded (src : Buffer) (base : Nat) (out tail : List Byte) (invalid : Option Nat) : HostOp :=
  ⟨.decode, src, ⟨base, out ++ tail⟩, out.length,
    invalid.elim (bufLen src / 2) (fun _ => out.length + 1),
    invalid.elim (.ok (bufLen src / 2)) (fun pos => .invalidCharacter out.length pos)⟩

section
variable {src : Buffer} {c0 c1 : Byte} {out : List Byte} (hc0 : src.bytes[2 * out.length]? = some c0)
  (hc1 : src.bytes[2 * out.length + 1]? = some c1)

include hc1 in
/-- While a complete pair is left, the loop runs. -/
theorem opAt_decode_running (base : Nat) (tail : List Byte) :
    opAt .decode src base out tail out.length =
      ⟨.decode, src, ⟨base, out ++ tail⟩, out.length, out.length, .running⟩ := by
  obtain ⟨hlt, -⟩ := List.getElem?_eq_some_iff.1 hc1
  refine opAt_running ?_ base out tail
  rw [opUnits, Config.charsPerByte, bufLen]
  omega

include hc0 hc1

/-- Rule R143, one edge of the loop on a valid pair: its byte follows what is written. -/
theorem opRun_decode_succ_valid (h0 : (lutDec c0).valid = true) (h1 : (lutDec c1).valid = true) (fuel base : Nat)
    (x : Byte) (tail : List Byte) (s : State) :
    opRun (fuel + 1) (opAt .decode src base out (x :: tail) out.length) s =
      opRun fuel (opAt .decode src base (out ++ [joinNibbles (lutDec c0).nib (lutDec c1).nib]) tail (out.length + 1))
        (afterCommand (encode (.dec c0 c1)) s) := by
  rw [opAt_decode_running hc1]
  refine opRun_succ_of_edge rfl ?_ fuel
  rw [opEdge_decode_valid rfl rfl hc0 hc1 h0 h1 (by simp [bufLen])]
  simp [opAt]

/-- Rule R145, one edge of the loop on a pair with an invalid character: the loop ends there. -/
theorem opRun_decode_succ_invalid (hv : ((lutDec c0).valid && (lutDec c1).valid) = false) (fuel base : Nat)
    (tail : List Byte) (s : State) :
    opRun (fuel + 1) (opAt .decode src base out tail out.length) s =
      .next (decodeEnded src base out tail (some (if (lutDec c0).valid then 2 * out.length + 1 else 2 * out.length)),
        afterCommand (encode (.dec c0 c1)) s) := by
  rw [opAt_decode_running hc1, opRun_succ_of_edge rfl (opEdge_decode_invalid rfl rfl hc0 hc1 hv s), opRun_ended]
  · rfl
  · nofun

end

/-- The pair at a decode's index is the first of the characters that are left. -/
theorem pair_at_index {src : Buffer} {pre rest : List Byte} {c0 c1 : Byte} {i : Nat}
    (hsrc : src.bytes = pre ++ c0 :: c1 :: rest) (hpre : pre.length = 2 * i) :
    src.bytes[2 * i]? = some c0 ∧ src.bytes[2 * i + 1]? = some c1 := by
  simp [hsrc, ← hpre]

/-- A complete pair is one unit of the loop. -/
theorem half_length_pair (c0 c1 : Byte) (rest : List Byte) : (c0 :: c1 :: rest).length / 2 = rest.length / 2 + 1 :=
  Nat.add_div_right _ Nat.two_pos

/-- Rules R143 to R145: the loop from index `out.length` on decodes the characters that are left. -/
theorem opRun_decode {src : Buffer} {pos : Nat} {rest : List Byte} (base : Nat) (pre out tail : List Byte) (s : State)
    (hsrc : src.bytes = pre ++ rest) (hpre : pre.length = 2 * out.length) (hpos : pos = 2 * out.length)
    (hroom : rest.length / 2 ≤ tail.length) :
    ∃ t, opRun (rest.length / 2) (opAt .decode src base out tail out.length) s = .next
      (decodeEnded src base (out ++ (decodeText pos rest).bytes) (tail.drop (decodeText pos rest).bytes.length)
        (decodeText pos rest).invalid, t) := by
  induction pos, rest using decodeText_induction generalizing pre out tail s with
  | short pos rest hrest =>
    have hhalf : bufLen src / 2 = out.length := by rw [bufLen, hsrc, List.length_append, hpre]; omega
    refine ⟨s, ?_⟩
    rw [opAt_ended (show bufLen src / 2 ≤ out.length from hhalf.le), decodeText_short pos hrest, Nat.div_eq_of_lt hrest]
    simp [opRun, decodeEnded, opNeeded, Config.charsPerByte, hhalf]
  | valid pos c0 c1 rest h0 h1 ih =>
    rw [half_length_pair] at hroom ⊢
    obtain _ | ⟨x, tail⟩ := tail
    case nil => cases hroom
    obtain ⟨hc0, hc1⟩ := pair_at_index hsrc hpre
    obtain ⟨t, hrun⟩ := ih (pre ++ [c0, c1]) (out ++ [joinNibbles (lutDec c0).nib (lutDec c1).nib]) tail
      (afterCommand (encode (.dec c0 c1)) s) (by simp [hsrc]) (by simp [hpre]; omega) (by simp [hpos]; omega)
      (Nat.le_of_succ_le_succ hroom)
    refine ⟨t, ?_⟩
    rw [opRun_decode_succ_valid hc0 hc1 h0 h1, decodeText_valid pos rest h0 h1]
    simpa using hrun
  | invalid pos c0 c1 rest hv =>
    obtain ⟨hc0, hc1⟩ := pair_at_index hsrc hpre
    refine ⟨afterCommand (encode (.dec c0 c1)) s, ?_⟩
    rw [half_length_pair, opRun_decode_succ_invalid hc0 hc1 hv, decodeText_invalid pos rest hv, hpos, List.append_nil]
    rfl

/-! #### Whole calls -/

section
variable {src dst : Buffer} (hover : bufOverlap src dst = false)
include hover

/-- Rule R142: how an encode with room ends. -/
theorem opCall_encode (hroom : 2 * bufLen src ≤ bufLen dst) (s : State) : ∃ t, opCall .encode src dst s = .next
    (⟨.encode, src, ⟨dst.base, encodeText s.caseMode src.bytes ++ dst.bytes.drop (2 * bufLen src)⟩,
      bufLen src, bufLen src, .ok (2 * bufLen src)⟩, t) := by
  rw [opCall_inside (k := .encode) hover hroom, opUnits, Config.bytesPerCmd, Nat.div_one]
  exact opRun_encode dst.base [] [] dst.bytes s rfl rfl hroom

/-- Rules R143 to R145: how a decode with room ends. -/
theorem opCall_decode (hroom : bufLen src / 2 ≤ bufLen dst) (s : State) : ∃ t, opCall .decode src dst s = .next
    (decodeEnded src dst.base (decodeText 0 src.bytes).bytes (dst.bytes.drop (decodeText 0 src.bytes).bytes.length)
      (decodeText 0 src.bytes).invalid, t) := by
  rw [opCall_inside (k := .decode) hover hroom]
  exact opRun_decode dst.base [] [] dst.bytes s rfl rfl rfl hroom

/-- What an encode with room gives its caller. -/
theorem callResult_encode (hroom : 2 * bufLen src ≤ bufLen dst) (s : State) :
    callResult .encode src dst s = some ⟨encodeText s.caseMode src.bytes, 2 * bufLen src, none⟩ := by
  obtain ⟨t, hcall⟩ := opCall_encode hover hroom s
  rw [callResult_of_next hcall]
  simp [opResult, bufLen]

/-- What a decode with room gives its caller. -/
theorem callResult_decode (hroom : bufLen src / 2 ≤ bufLen dst) (s : State) :
    callResult .decode src dst s = some ⟨(decodeText 0 src.bytes).bytes, (decodeText 0 src.bytes).bytes.length,
      (decodeText 0 src.bytes).invalid⟩ := by
  obtain ⟨t, hcall⟩ := opCall_decode hover hroom s
  rw [callResult_of_next hcall]
  cases hinv : (decodeText 0 src.bytes).invalid with
  | none     => simp [opResult, decodeEnded, bufLen, ← length_decodeText_of_none hinv]
  | some pos => simp [opResult, decodeEnded]

end

/-- A shorter buffer at the same place overlaps no more. -/
theorem bufOverlap_of_shorter {a a' b : Buffer} (h : bufOverlap a b = false) (hbase : a'.base = a.base)
    (hlen : bufLen a' ≤ bufLen a) : bufOverlap a' b = false := by
  rw [← Bool.not_eq_true] at h ⊢
  simp only [bufOverlap, Bool.and_eq_true, decide_eq_true_eq, hbase] at h ⊢
  omega

/-! #### The text an encode wrote, as the source of a decode -/

theorem bufTake_encoded (m : CaseMode) (src : Buffer) (base : Nat) (tail : List Byte) :
    bufTake (2 * bufLen src) ⟨base, encodeText m src.bytes ++ tail⟩ = ⟨base, encodeText m src.bytes⟩ := by
  simp [bufTake, bufLen]

theorem bufLen_encoded (m : CaseMode) (src : Buffer) (base : Nat) :
    bufLen ⟨base, encodeText m src.bytes⟩ = 2 * bufLen src :=
  length_encodeText m src.bytes

theorem half_bufLen_encoded (m : CaseMode) (src : Buffer) (base : Nat) :
    bufLen ⟨base, encodeText m src.bytes⟩ / 2 = bufLen src := by
  rw [bufLen_encoded, Nat.mul_div_cancel_left _ Nat.two_pos]

theorem bufOverlap_encoded {src mid dst : Buffer} (hover : bufOverlap mid dst = false)
    (hroom : 2 * bufLen src ≤ bufLen mid) (m : CaseMode) :
    bufOverlap ⟨mid.base, encodeText m src.bytes⟩ dst = false :=
  bufOverlap_of_shorter hover rfl ((bufLen_encoded m src mid.base).symm ▸ hroom)

/-! #### Folding -/

theorem bufOverlap_bufMap (f : Byte → Byte) (a b : Buffer) : bufOverlap (bufMap f a) b = bufOverlap a b :=
  bufOverlap_congr rfl (bufLen_bufMap f a) rfl rfl

end Sys2Proof.Machine

/-!
### The statements of 44_buffer_ops.md about one operation

SUPPORT. The statements of 44_buffer_ops.md about one operation: what HexEncodeBuf and HexDecodeBuf end with (rules R142
to R148), the capacity check (rule R146), and the testable properties (rule R149).
-/
namespace Sys2Proof
open Machine

/-- Settles O46: a call asks for overlap, then for room; with both, by induction on the bytes that are left. -/
theorem hexEncodeBufResult : Obligations.HexEncodeBufResult := by
  unfold Obligations.HexEncodeBufResult
  intro dst src s
  refine ⟨fun hover => opCall_overlap hover s, fun hover hshort => opCall_short (k := .encode) hover hshort s,
    fun hover hroom => ?_⟩
  obtain ⟨t, hcall⟩ := opCall_encode hover hroom s
  obtain ⟨hcase, hinputs, hempty⟩ := opCall_frame hcall
  exact ⟨t, hcall, hcase, hinputs, fun h => hempty (by rw [h]; rfl)⟩

/-- Settles O47: a call asks for overlap, then for room; with both, by induction on the pairs that are left. -/
theorem hexDecodeBufResult : Obligations.HexDecodeBufResult := by
  unfold Obligations.HexDecodeBufResult
  intro dst src s
  refine ⟨fun hover => opCall_overlap hover s, fun hover hshort => opCall_short (k := .decode) hover hshort s,
    fun hover hroom => ?_⟩
  obtain ⟨t, hcall⟩ := opCall_decode hover hroom s
  exact ⟨t, hcall, opCall_frame hcall⟩

/-- Settles O48: the count of a text without a failing pair, the pair a text stops at, and the pair of each byte, each
by induction on the text; every pair before the stop gave a byte, so its characters are accepted. -/
theorem decodedTextPositions : Obligations.DecodedTextPositions := by
  unfold Obligations.DecodedTextPositions
  refine fun cs => ⟨fun hnone => ?_, fun pos hstop => decodeText_position hstop, fun i b hb => ?_⟩
  · have hlen := length_decodeText_of_none hnone
    exact ⟨hlen, fun i hi => accepted_of_lt_decoded (hlen ▸ hi)⟩
  · obtain ⟨c0, c1, h0, h1, -, -, hbyte⟩ := decodeText_getElem? hb
    exact ⟨c0, c1, h0, h1, hbyte⟩

/-- Settles O51: the capacity is checked before anything else of a call but overlap, and the loop never faults; beside
others the fault becomes the operation's own end. -/
theorem bufferTooSmallComesFirst : Obligations.BufferTooSmallComesFirst := by
  unfold Obligations.BufferTooSmallComesFirst
  have hneeded (k : OpKind) (n : Nat) : (if k = .encode then 2 * n else n / 2) = opNeeded k n := by
    cases k <;> rfl
  refine ⟨fun k src dst s needed hover hn => ?_, fun k src dst y needed hover hn hshort => ?_⟩
  · rw [hneeded] at hn
    subst hn
    refine ⟨fun hfault => ?_, fun hshort => opCall_short hover hshort s⟩
    obtain ⟨-, hshort, -⟩ := opStart_fault (opCall_fault hfault)
    exact hshort
  · rw [hneeded] at hn
    subst hn
    exact ⟨_, sysStep_call_short hover hshort y, rfl, rfl, rfl, rfl, rfl⟩

/-- Settles O53: the text that encoding wrote decodes to the source, since the reverse lookup takes back the forward one
under either CASE. -/
theorem roundTrip : Obligations.RoundTrip := by
  unfold Obligations.RoundTrip
  intro src mid dst s hover hroom hover' hroom'
  obtain ⟨t₁, hencode⟩ := opCall_encode hover hroom s
  obtain ⟨t₂, hdecode⟩ := opCall_decode (bufOverlap_encoded hover' hroom s.caseMode)
    ((half_bufLen_encoded s.caseMode src mid.base).symm ▸ hroom') t₁
  rw [decodeText_encodeText] at hdecode
  refine ⟨_, t₁, _, t₂, hencode, rfl, by rw [bufTake_encoded]; exact hdecode, ?_, rfl⟩
  exact congrArg OpStatus.ok (half_bufLen_encoded s.caseMode src mid.base)

/-- Settles O54: folding changes no answer of the reverse lookup, so both texts decode to the same. -/
theorem decodeIsCaseInvariant : Obligations.DecodeIsCaseInvariant := by
  unfold Obligations.DecodeIsCaseInvariant
  intro dst src s fold hfold hover hroom
  have hlut (ch : Byte) : lutDec (fold ch) = lutDec ch := by
    obtain rfl | rfl := hfold
    · exact lutDec_toUpperASCII ch
    · exact lutDec_toLowerASCII ch
  obtain ⟨t, hcall⟩ := opCall_decode hover hroom s
  obtain ⟨t', hcall'⟩ := opCall_decode (src := bufMap fold src) (by rwa [bufOverlap_bufMap]) (by rwa [bufLen_bufMap]) s
  refine ⟨_, t, _, t', hcall, hcall', ?_⟩
  have htext : decodeText 0 (bufMap fold src).bytes = decodeText 0 src.bytes := decodeText_map hlut 0 src.bytes
  simp [decodeEnded, htext]

/-- Settles O55: what is written is the text of the source, made of forward lookups alone. -/
theorem encodeConformsToAlphabet : Obligations.EncodeConformsToAlphabet := by
  unfold Obligations.EncodeConformsToAlphabet
  intro dst src s hover hroom
  obtain ⟨t, hcall⟩ := opCall_encode hover hroom s
  refine ⟨_, t, hcall, fun i hi => ?_⟩
  have htext : i < (encodeText s.caseMode src.bytes).length := by rwa [length_encodeText]
  exact ⟨_, (List.getElem?_append_left htext).trans (List.getElem?_eq_getElem htext),
    mem_alphabet_of_mem_encodeText (List.getElem_mem htext)⟩

/-- Settles O60: each point from what the calls give their callers, the text of the source and the decoded text. -/
theorem testablePropertiesHold : Obligations.TestablePropertiesHold := by
  unfold Obligations.TestablePropertiesHold
  refine ⟨fun src mid dst s hover hover' hroom hroom' => ?roundTrips, fun src dst s hover =>
    ⟨fun hroom => ⟨?caseInvariant, fun haccepted => ?half⟩, fun hroom => ⟨?twice, ?alphabet⟩⟩⟩
  case roundTrips =>
    obtain ⟨t, hencode⟩ := opCall_encode hover hroom s
    refine ⟨_, t, hencode, rfl, ?_⟩
    rw [bufTake_encoded, callResult_decode (bufOverlap_encoded hover' hroom s.caseMode)
      ((half_bufLen_encoded s.caseMode src mid.base).symm ▸ hroom'), decodeText_encodeText]
    rfl
  case caseInvariant =>
    have hfolded (f : Byte → Byte) (hf : ∀ ch, lutDec (f ch) = lutDec ch) :
        callResult .decode (bufMap f src) dst s = callResult .decode src dst s := by
      rw [callResult_decode hover hroom, callResult_decode (by rwa [bufOverlap_bufMap]) (by rwa [bufLen_bufMap]),
        bufMap, decodeText_map hf]
    exact ⟨_, callResult_decode hover hroom s,
      (hfolded _ lutDec_toUpperASCII).trans (callResult_decode hover hroom s),
      (hfolded _ lutDec_toLowerASCII).trans (callResult_decode hover hroom s)⟩
  case half =>
    have hlen := length_decodeText_of_none (decodeText_invalid_of_completePairs haccepted)
    exact ⟨_, callResult_decode hover hroom s, hlen, hlen⟩
  case twice => exact ⟨_, callResult_encode hover hroom s, length_encodeText _ _, rfl⟩
  case alphabet => exact ⟨_, callResult_encode hover hroom s, fun c hc => mem_alphabet_of_mem_encodeText hc⟩

end Sys2Proof

/-!
### Operations beside one another

SUPPORT. What one event of a system with no reset and no SETCASE from outside does (44_buffer_ops.md rule R150,
20_memory.md rule R52): it leaves CASE, moves at most the operation it is granted to, adds at most one, and leaves
buffers distinct. An operation reads CASE alone of the block, so its own edges are those it would take alone.
-/
namespace Sys2Proof.Machine

/-! #### One operation beside a block -/

/-- `op` run alone from the block `s` for `n` edges stands at `op'`, whatever block that leaves. -/
def RunsTo (n : Nat) (op op' : HostOp) (s : State) : Prop := ∃ t, opRun n op s = .next (op', t)

/-- An edge of an operation reads CASE alone of the block. -/
theorem opEdge_congr {op op' : HostOp} {s s' t : State} (hcase : s'.caseMode = s.caseMode)
    (h : opEdge op s = .next (op', t)) : ∃ t', opEdge op s' = .next (op', t') := by
  by_cases hrun : op.status = .running
  · obtain ⟨w, hw, htake, -⟩ := opEdge_running_next hrun h
    exact ⟨_, by rw [opEdge_running hrun hw, hcase, htake, andThen_next]⟩
  · rw [opEdge_ended hrun] at h
    cases h
    exact ⟨_, opEdge_ended hrun s'⟩

theorem RunsTo.congr {n : Nat} {op op' : HostOp} {s s' : State} (hcase : s'.caseMode = s.caseMode)
    (h : RunsTo n op op' s) : RunsTo n op op' s' := by
  obtain ⟨t, h⟩ := h
  induction n generalizing op s s' with
  | zero => cases h; exact ⟨s', rfl⟩
  | succ n ih =>
    by_cases hrun : op.status = .running
    · rw [opRun, if_pos hrun] at h
      obtain ⟨⟨op₁, t₁⟩, hedge, hrest⟩ := andThen_eq_next h
      obtain ⟨t₁', hedge'⟩ := opEdge_congr hcase hedge
      rw [RunsTo, opRun_succ_of_edge hrun hedge']
      exact ih (by rw [(opEdge_frame hedge').1, (opEdge_frame hedge).1, hcase]) hrest
    · rw [opRun_ended hrun] at h
      cases h
      exact ⟨s', opRun_ended hrun _ s'⟩

/-- A granted edge, then `n` edges alone, are `n + 1` edges alone. -/
theorem RunsTo.succ_of_edge {n : Nat} {op op₁ op' : HostOp} {s t : State} (hedge : opEdge op s = .next (op₁, t))
    (h : RunsTo n op₁ op' t) : RunsTo (n + 1) op op' s := by
  by_cases hrun : op.status = .running
  · rwa [RunsTo, opRun_succ_of_edge hrun hedge]
  · rw [opEdge_ended hrun] at hedge
    cases hedge
    obtain ⟨u, hu⟩ := h
    rw [opRun_ended hrun] at hu
    cases hu
    exact ⟨s, opRun_ended hrun _ s⟩

/-! #### One event -/

theorem step_keepsCase {p : PortIn} {s t : State} (hp : keepsCase (.edge p) = true) (h : step (present p s) = .next t) :
    t.caseMode = s.caseMode := by
  obtain ⟨hrst, hstep⟩ | ⟨-, hvalid, hstep⟩ | ⟨-, -, hstep⟩ := step_cases (present p s)
  · simp [keepsCase, show p.rst = true from hrst] at hp
  · rw [h] at hstep
    cases hstep
    refine transact_keeps_caseMode (fun m hm => ?_) s.caseMode
    simp [keepsCase, show p.cmdValid = true from hvalid, show decode p.cmd = .ok (.setcase m) from hm] at hp
  · rw [h] at hstep
    cases hstep
    rfl

/-- What an event that leaves CASE alone does to a system: an edge that no operation takes, an edge granted to an
operation, or a call. -/
inductive Moves (y : System) : SysEvent → System → Prop
  | edge {e : SysEvent} {t : State} (hops : ∀ k op, e = .grant k → y.ops[k]? ≠ some op) (hcalls : callsIn [e] = 0)
      (hcase : t.caseMode = y.block.caseMode) : Moves y e { y with block := t }
  | grant {k : Nat} {op op' : HostOp} {t : State} (hop : y.ops[k]? = some op)
      (hedge : opEdge op y.block = .next (op', t)) : Moves y (.grant k) ⟨t, y.ops.set k op'⟩
  | call {kind : OpKind} {src dst : Buffer} {op : HostOp} (hcall : opCalled kind src dst = .next op)
      (hclash : op.status = .running → ∀ o ∈ y.ops, buffersClash src dst o = false) :
      Moves y (.call kind src dst) { y with ops := y.ops ++ [op] }

/-- Every event that leaves CASE alone and answers is such a move. -/
theorem moves_of_sysStep {e : SysEvent} {y y' : System} (he : keepsCase e = true) (h : sysStep e y = .next y') :
    Moves y e y' := by
  have hidle {p : PortIn} (hp : keepsCase (.edge p) = true) (hedge : sysStep (.edge p) y = .next y')
      (hops : ∀ k op, e = .grant k → y.ops[k]? ≠ some op) (hcalls : callsIn [e] = 0) : Moves y e y' := by
    obtain ⟨t, hstep, hy⟩ := andThen_eq_next hedge
    cases hy
    exact .edge hops hcalls (step_keepsCase hp hstep)
  cases e with
  | edge p => exact hidle he h nofun rfl
  | grant k =>
    cases hk : y.ops[k]? with
    | none =>
      rw [sysStep_grant_absent hk] at h
      refine hidle rfl h (fun k' op hk' hop => ?_) rfl
      cases hk'
      rw [hk] at hop
      cases hop
    | some op =>
      simp only [sysStep, hk] at h
      obtain ⟨⟨op', t⟩, hedge, hy⟩ := andThen_eq_next h
      cases hy
      exact .grant hk hedge
  | missed k =>
    obtain hrefused | hmissed := sysStep_missed k y
    · rw [hrefused] at h
      cases h
    · exact hidle rfl (hmissed ▸ h) nofun rfl
  | call kind src dst =>
    obtain ⟨op, hcall, h⟩ := andThen_eq_next h
    split at h
    · cases h
    · rename_i hclash
      cases h
      refine .call hcall fun hrun o ho => ?_
      simp only [hrun, true_and, List.any_eq_true, not_exists, not_and, Bool.not_eq_true] at hclash
      exact hclash o ho

theorem Moves.caseMode_eq {y y' : System} {e : SysEvent} (h : Moves y e y') :
    y'.block.caseMode = y.block.caseMode := by
  cases h with
  | edge _ _ hcase => exact hcase
  | grant _ hedge  => exact (opEdge_frame hedge).1
  | call _ _       => rfl

theorem Moves.length_ops {y y' : System} {e : SysEvent} (h : Moves y e y') :
    y'.ops.length = y.ops.length + callsIn [e] := by
  cases h with
  | edge _ hcalls _ => rw [hcalls]; rfl
  | grant _ _       => exact List.length_set
  | call _ _        => exact List.length_append

/-- Each operation takes the edge an event grants to it, and stands still at any other event. -/
theorem Moves.op {y y' : System} {e : SysEvent} (h : Moves y e y') {k : Nat} {op : HostOp} (hop : y.ops[k]? = some op) :
    ∃ op₁, y'.ops[k]? = some op₁ ∧
      (e = .grant k ∧ (∃ t, opEdge op y.block = .next (op₁, t)) ∨ e ≠ .grant k ∧ op₁ = op) := by
  cases h with
  | edge hops _ _ => exact ⟨op, hop, .inr ⟨fun he => hops k op he hop, rfl⟩⟩
  | @grant j o o' t ho hedge =>
    obtain ⟨hlt, -⟩ := List.getElem?_eq_some_iff.1 hop
    by_cases hjk : j = k
    · subst hjk
      rw [ho] at hop
      cases hop
      exact ⟨o', List.getElem?_set_self hlt, .inl ⟨rfl, t, hedge⟩⟩
    · refine ⟨op, (List.getElem?_set_ne hjk).trans hop, .inr ⟨fun he => hjk ?_, rfl⟩⟩
      cases he
      rfl
  | call _ _ =>
    obtain ⟨hlt, -⟩ := List.getElem?_eq_some_iff.1 hop
    exact ⟨op, (List.getElem?_append_left hlt).trans hop, .inr ⟨nofun, rfl⟩⟩

/-- A call's operation stands after those before it. -/
theorem Moves.called {y y' : System} {kind : OpKind} {src dst : Buffer} (h : Moves y (.call kind src dst) y') :
    ∃ op, opCalled kind src dst = .next op ∧ y'.ops[y.ops.length]? = some op := by
  cases h with
  | edge _ hcalls _         => cases hcalls
  | @call _ _ _ op hcall _ => exact ⟨op, hcall, List.getElem?_concat_length⟩

/-! #### Distinct buffers -/

theorem opCalled_buffers {k : OpKind} {src dst : Buffer} {op : HostOp} (h : opCalled k src dst = .next op) :
    op.src = src ∧ op.dst = dst := by
  obtain ⟨rfl, -⟩ | rfl := opCalled_next h
  · exact ⟨opSettle_src _, opSettle_dst _⟩
  · exact ⟨rfl, rfl⟩

/-- Operations that keep their buffers in place and do not start again keep from clashing. -/
theorem buffersClash_of_keeps {o₁ o₁' o₂ o₂' : HostOp} (h₁ : Keeps o₁ o₁') (h₂ : Keeps o₂ o₂')
    (h : o₂.status = .running → buffersClash o₂.src o₂.dst o₁ = false) (hrun : o₂'.status = .running) :
    buffersClash o₂'.src o₂'.dst o₁' = false := by
  have hclash := h (h₂.running hrun)
  simp only [buffersClash, h₁.src, h₂.src, bufOverlap_congr h₁.base h₁.len rfl rfl,
    bufOverlap_congr rfl rfl h₂.base h₂.len] at hclash ⊢
  by_cases hrun₁ : o₁'.status = .running
  · simpa [h₁.running hrun₁, hrun₁] using hclash
  · simp [hrun₁]

theorem opsDistinct_set {ops : List HostOp} (h : opsDistinct ops) {k : Nat} {op op' : HostOp} (hop : ops[k]? = some op)
    (hkeeps : Keeps op op') : opsDistinct (ops.set k op') := by
  have hall (i : Nat) (hi : i < (ops.set k op').length) :
      Keeps (ops[i]'(by rwa [List.length_set] at hi)) (ops.set k op')[i] := by
    rw [List.getElem_set]
    split
    · rename_i hki
      subst hki
      obtain ⟨_, hget⟩ := List.getElem?_eq_some_iff.1 hop
      exact hget ▸ hkeeps
    · exact .self _
  unfold opsDistinct at h ⊢
  rw [List.pairwise_iff_getElem] at h ⊢
  intro i j hi hj hij
  exact buffersClash_of_keeps (hall i hi) (hall j hj)
    (h i j (by rwa [List.length_set] at hi) (by rwa [List.length_set] at hj) hij)

theorem Moves.distinct {y y' : System} {e : SysEvent} (h : Moves y e y') (hops : opsDistinct y.ops) :
    opsDistinct y'.ops := by
  cases h with
  | edge _ _ _         => exact hops
  | grant hop hedge    => exact opsDistinct_set hops hop (opEdge_keeps hedge)
  | call hcall hclash  =>
    obtain ⟨hsrc, hdst⟩ := opCalled_buffers hcall
    refine List.pairwise_append.2 ⟨hops, List.pairwise_singleton _ _, fun o ho o' ho' hrun => ?_⟩
    obtain rfl := List.mem_singleton.1 ho'
    rw [hsrc, hdst]
    exact hclash hrun o ho

/-! #### Runs of events -/

theorem callsIn_cons (e : SysEvent) (es : List SysEvent) : callsIn (e :: es) = callsIn [e] + callsIn es := by
  rw [callsIn, callsIn, callsIn, ← List.countP_append, List.singleton_append]

theorem grantsTo_cons_self (k : Nat) (es : List SysEvent) : grantsTo k (.grant k :: es) = grantsTo k es + 1 :=
  List.countP_cons_of_pos (beq_self_eq_true _)

theorem grantsTo_cons_of_ne {k : Nat} {e : SysEvent} (h : e ≠ .grant k) (es : List SysEvent) :
    grantsTo k (e :: es) = grantsTo k es :=
  List.countP_cons_of_neg (by rwa [beq_iff_eq])

/-- A run of events that leave CASE alone is one move after another. -/
theorem moves_of_sysRun {e : SysEvent} {es : List SysEvent} {y y' : System} (he : keepsCase e = true)
    (h : sysRun (e :: es) y = .next y') : ∃ y₁, Moves y e y₁ ∧ sysRun es y₁ = .next y' := by
  obtain ⟨y₁, hstep, hrest⟩ := andThen_eq_next h
  exact ⟨y₁, moves_of_sysStep he hstep, hrest⟩

section
variable {es : List SysEvent} {y y' : System}

theorem opsDistinct_of_sysRun (hes : ∀ e ∈ es, keepsCase e = true) (hrun : sysRun es y = .next y')
    (hops : opsDistinct y.ops) : opsDistinct y'.ops := by
  induction es generalizing y with
  | nil => cases hrun; exact hops
  | cons e es ih =>
    obtain ⟨he, hes⟩ := List.forall_mem_cons.1 hes
    obtain ⟨y₁, hmove, hrest⟩ := moves_of_sysRun he hrun
    exact ih hes hrest (hmove.distinct hops)

/-- Rule R150 for an operation that is there from the start. -/
theorem runsTo_of_sysRun (hes : ∀ e ∈ es, keepsCase e = true) (hrun : sysRun es y = .next y') {k : Nat} {op : HostOp}
    (hop : y.ops[k]? = some op) : ∃ op', RunsTo (grantsTo k es) op op' y.block ∧ y'.ops[k]? = some op' := by
  induction es generalizing y op with
  | nil => cases hrun; exact ⟨op, ⟨_, rfl⟩, hop⟩
  | cons e es ih =>
    obtain ⟨he, hes⟩ := List.forall_mem_cons.1 hes
    obtain ⟨y₁, hmove, hrest⟩ := moves_of_sysRun he hrun
    obtain ⟨op₁, hop₁, hedge⟩ := hmove.op hop
    obtain ⟨op', halone, hop'⟩ := ih hes hrest hop₁
    refine ⟨op', ?_, hop'⟩
    obtain ⟨rfl, t, hedge⟩ | ⟨hne, rfl⟩ := hedge
    · rw [grantsTo_cons_self]
      exact .succ_of_edge hedge (halone.congr ((opEdge_frame hedge).1.trans hmove.caseMode_eq.symm))
    · rw [grantsTo_cons_of_ne hne]
      exact halone.congr hmove.caseMode_eq.symm

/-- Rule R150 for an operation called meanwhile, from its call on. -/
theorem runsTo_of_called (hes : ∀ e ∈ es, keepsCase e = true) (hrun : sysRun es y = .next y')
    {before after : List SysEvent} {kind : OpKind} {src dst : Buffer}
    (hsplit : es = before ++ .call kind src dst :: after) :
    ∃ op op', opCalled kind src dst = .next op ∧
      RunsTo (grantsTo (y.ops.length + callsIn before) after) op op' y.block ∧
      y'.ops[y.ops.length + callsIn before]? = some op' := by
  subst hsplit
  induction before generalizing y with
  | nil =>
    obtain ⟨he, hes⟩ := List.forall_mem_cons.1 hes
    obtain ⟨y₁, hmove, hrest⟩ := moves_of_sysRun he hrun
    obtain ⟨op, hcall, hop⟩ := hmove.called
    obtain ⟨op', halone, hop'⟩ := runsTo_of_sysRun hes hrest hop
    exact ⟨op, op', hcall, halone.congr hmove.caseMode_eq.symm, hop'⟩
  | cons e before ih =>
    obtain ⟨he, hes⟩ := List.forall_mem_cons.1 hes
    obtain ⟨y₁, hmove, hrest⟩ := moves_of_sysRun he hrun
    obtain ⟨op, op', hcall, halone, hop'⟩ := ih hes hrest
    rw [hmove.length_ops, Nat.add_assoc, ← callsIn_cons] at halone hop'
    exact ⟨op, op', hcall, halone.congr hmove.caseMode_eq.symm, hop'⟩

end

end Sys2Proof.Machine

/-!
### The statement of 44_buffer_ops.md about several operations

SUPPORT. The statement of 44_buffer_ops.md about several operations beside one block (rule R150).
-/
namespace Sys2Proof
open Machine

/-- Settles O57: by induction on the events, each of which moves at most one operation, by the edge it would take alone
under the same CASE. -/
theorem concurrentOperationsDoNotInterfere : Obligations.ConcurrentOperationsDoNotInterfere := by
  unfold Obligations.ConcurrentOperationsDoNotInterfere
  intro es y y' hops hes hrun
  refine ⟨opsDistinct_of_sysRun hes hrun hops, fun k op hop => ?_, fun before after kind src dst hsplit => ?_⟩
  · obtain ⟨op', ⟨t, halone⟩, hop'⟩ := runsTo_of_sysRun hes hrun hop
    exact ⟨op', t, halone, hop'⟩
  · obtain ⟨op, op', hcall, ⟨t, halone⟩, hop'⟩ := runsTo_of_called hes hrun hsplit
    exact ⟨op, op', t, hcall, halone, hop'⟩

end Sys2Proof

/-!
### The STATUS of a word

SUPPORT. The STATUS a word is answered with, read off its decoding alone (60_exceptions.md rules R160 to R162), and what
an error leaves (rules R166 and R167).
-/
namespace Sys2Proof.Machine

/-- Rules R160 to R162: the STATUS a decoded word is answered with. There is no CASE in it. -/
def statusOf : Except IllegalWord Instr → Status
  | .ok (.dec c0 c1) => if c0 ∈ acceptedAlphabet ∧ c1 ∈ acceptedAlphabet then .ok else .invalidChar
  | .ok (.lutdec ch) => if ch ∈ acceptedAlphabet then .ok else .invalidChar
  | .ok _            => .ok
  | .error _         => .illegalCmd

theorem Status.code_eq_one_iff (st : Status) : st.code = 1 ↔ st = .invalidChar := by
  cases st <;> decide

theorem Status.code_eq_two_iff (st : Status) : st.code = 2 ↔ st = .illegalCmd := by
  cases st <;> decide

theorem statusOf_dec_eq_invalidChar_iff (c0 c1 : Byte) :
    statusOf (.ok (.dec c0 c1)) = .invalidChar ↔ c0 ∉ acceptedAlphabet ∨ c1 ∉ acceptedAlphabet := by
  rw [statusOf, ← not_and_or]
  split_ifs with haccepted
  · exact iff_of_false (by decide) (not_not_intro haccepted)
  · exact iff_of_true rfl haccepted

theorem statusOf_lutdec_eq_invalidChar_iff (ch : Byte) :
    statusOf (.ok (.lutdec ch)) = .invalidChar ↔ ch ∉ acceptedAlphabet := by
  rw [statusOf]
  split_ifs with haccepted
  · exact iff_of_false (by decide) (not_not_intro haccepted)
  · exact iff_of_true rfl haccepted

theorem statusOf_eq_invalidChar_iff (d : Except IllegalWord Instr) :
    statusOf d = .invalidChar ↔
      (∃ c0 c1, d = .ok (.dec c0 c1) ∧ (c0 ∉ acceptedAlphabet ∨ c1 ∉ acceptedAlphabet)) ∨
      ∃ ch, d = .ok (.lutdec ch) ∧ ch ∉ acceptedAlphabet := by
  cases d with
  | error e => simp [statusOf]
  | ok i =>
    cases i with
    | dec c0 c1 => simpa using statusOf_dec_eq_invalidChar_iff c0 c1
    | lutdec ch => simpa using statusOf_lutdec_eq_invalidChar_iff ch
    | nop | enc | setcase | getcase | lutenc => simp [statusOf]

theorem statusOf_eq_illegalCmd_iff (d : Except IllegalWord Instr) : statusOf d = .illegalCmd ↔ ∃ e, d = .error e := by
  unfold statusOf
  split
  · split <;> simp
  · split <;> simp
  · simp
  · simp

/-- Rule R124 answers a word with the STATUS of its decoding. -/
theorem rspStatus_transact (c : CaseMode) (w : Word32) : rspStatus (transact c w).2 = (statusOf (decode w)).code := by
  unfold transact
  cases decode w with
  | error e => exact rspStatus_rspWord _ _ _ _
  | ok i =>
    cases i with
    | dec c0 c1 =>
      simp only [statusOf, ← lutDec_valid_iff_mem_acceptedAlphabet, Bool.and_eq_true]
      split <;> exact rspStatus_rspWord _ _ _ _
    | lutdec ch =>
      simp only [statusOf, ← lutDec_valid_iff_mem_acceptedAlphabet]
      split <;> exact rspStatus_rspWord _ _ _ _
    | nop | enc | setcase | getcase | lutenc => exact rspStatus_rspWord _ _ _ _

theorem rspStatus_transact_eq_one_iff (c : CaseMode) (w : Word32) :
    rspStatus (transact c w).2 = 1 ↔ statusOf (decode w) = .invalidChar := by
  rw [rspStatus_transact, Status.code_eq_one_iff]

/-- Rules R64 and R67: no row accepts a word iff the decoder refuses it. -/
theorem not_row_iff_decode_error (w : Word32) :
    (¬ ∃ r ∈ encodingRows, w &&& r.mask = r.pattern) ↔ ∃ e, decode w = .error e := by
  obtain ⟨hrow, hdecode, -⟩ := legalIffDecodes w
  rw [← hrow, hdecode]
  cases decode w <;> simp

/-- Rule R166: a word answered with an error leaves CASE. -/
theorem transact_caseMode_of_error {c : CaseMode} {w : Word32} (h : rspStatus (transact c w).2 ≠ 0) :
    (transact c w).1 = c := by
  refine transact_keeps_caseMode (fun m hm => h ?_) c
  rw [rspStatus_transact, hm]; rfl

/-- Rule R167: a command reads neither RSP nor RSP_VALID. -/
theorem afterCommand_respond (w r : Word32) (s : State) : afterCommand w (respond r s) = afterCommand w s := rfl

theorem afterCommand_of_error {w : Word32} {s : State} (h : rspStatus (transact s.caseMode w).2 ≠ 0) :
    afterCommand w s = respond (transact s.caseMode w).2 s := by
  rw [afterCommand, transact_caseMode_of_error h]; rfl

end Sys2Proof.Machine

/-!
### The statements of 60_exceptions.md

SUPPORT. The statements of 60_exceptions.md: what causes each error (rules R161 and R162), and that none is sticky
(rules R166 and R167).
-/
namespace Sys2Proof
open Machine

/-- Settles O39: STATUS is read off the decoding, which has no CASE in it, and ERRMASK off the kind of answer. -/
theorem invalidCharCause : Obligations.InvalidCharCause := by
  unfold Obligations.InvalidCharCause
  intro s w
  have hans := transact_answers s.caseMode w
  have hstatus (c : CaseMode) := rspStatus_transact_eq_one_iff c w
  refine ⟨afterCommand w s, accept_eq_afterCommand w s, (hstatus _).trans (statusOf_eq_invalidChar_iff _),
    fun c0 c1 hdec => ?dec, fun ch hlutdec => ?lutdec,
    fun c => ⟨_, accept_eq_afterCommand w _, (hstatus c).trans (hstatus _).symm⟩⟩
  case dec =>
    obtain ⟨hA, hB⟩ := operands_of_decode_dec hdec
    have hinvalid := (hstatus s.caseMode).trans (hdec ▸ statusOf_dec_eq_invalidChar_iff c0 c1)
    rw [afterCommand_rsp, hans.bit16_iff, hans.bit17_iff, hinvalid, hA, hB, cmdOp_of_decode hdec]
    exact ⟨and_iff_right_of_imp .inl, (and_congr_right' (and_iff_right rfl)).trans (and_iff_right_of_imp .inr)⟩
  case lutdec =>
    have hA := operand_of_decode_lutdec hlutdec
    have hinvalid := (hstatus s.caseMode).trans (hlutdec ▸ statusOf_lutdec_eq_invalidChar_iff ch)
    rw [afterCommand_rsp, hans.bit16_iff, hinvalid, hA, ← Bool.not_eq_true, hans.bit17_iff, cmdOp_of_decode hlutdec]
    exact ⟨and_self_iff, fun ⟨_, hop, _⟩ => absurd hop (by simp [opcode])⟩

/-- Settles O40: no row of rule R64 accepts a word iff the decoder refuses it, and only then is STATUS 2. -/
theorem illegalCmdCause : Obligations.IllegalCmdCause := by
  unfold Obligations.IllegalCmdCause
  intro s w
  rw [not_row_iff_decode_error]
  refine ⟨⟨afterCommand w s, accept_eq_afterCommand w s, ?_⟩, fun ⟨_, herror⟩ => accept_of_illegal herror s⟩
  rw [afterCommand_rsp, rspStatus_transact, Status.code_eq_two_iff, statusOf_eq_illegalCmd_iff]

/-- Settles O41: an error writes RSP and RSP_VALID alone, and no command reads them. -/
theorem errorsAreNotSticky : Obligations.ErrorsAreNotSticky := by
  unfold Obligations.ErrorsAreNotSticky
  intro s t w haccept herror
  obtain rfl : afterCommand w s = t := Host.Outcome.next.inj ((accept_eq_afterCommand w s).symm.trans haccept)
  rw [afterCommand_of_error herror]
  refine ⟨rfl, (transact_answers s.caseMode w).rspOp_eq, fun w' => ?_⟩
  rw [accept_eq_afterCommand, accept_eq_afterCommand, afterCommand_respond]

end Sys2Proof

/-!
### Reset edges in a row

SUPPORT. Runs that begin with reset (70_reset_and_hazards.md rules R180 and R182), the outputs after a command
(rule R184), and what SETCASE and LUTENC do to a state (rules R121 and R86).
-/
namespace Sys2Proof.Machine

/-- Rule R180: each further reset edge finds the reset state and leaves it; the words on the port are dropped. -/
theorem edges_resets (s : State) (rest : List PortIn) (p : Bool × Word32) (ps : List (Bool × Word32)) :
    edges (ps.length + 1) { s with inputs := ((p :: ps).map fun q => resetIn q.1 q.2) ++ rest } =
      .next { State.reset with inputs := rest } := by
  induction ps generalizing s p with
  | nil => exact edges_succ_of_step (step_reset s p.1 p.2 rest) 0
  | cons q qs ih => exact (edges_succ_of_step (step_reset s p.1 p.2 _) _).trans (ih State.reset q)

/-- Rule R184: between edges a command's response stands on `rsp` with `rsp_valid` = 1. -/
@[simp] theorem outputs_afterCommand (w : Word32) (s : State) :
    outputs (afterCommand w s) = ⟨true, true, (transact s.caseMode w).2⟩ := rfl

/-- The step with a command presented accepts it. -/
theorem step_present_command (w : Word32) (s : State) : step (present (commandIn w) s) = .next (afterCommand w s) :=
  accept_eq_afterCommand w s

/-- Rule R121: SETCASE writes its mode to CASE and echoes the mode's bit. -/
theorem afterCommand_encode_setcase (m : CaseMode) (s : State) :
    afterCommand (encode (.setcase m)) s = respond (rspWord 0x3 .ok 0b00 (zext16 m.bit)) (setCaseMode m s) := by
  rw [afterCommand, transact_encode_setcase]

theorem rspWord_setcase (m : CaseMode) :
    rspWord 0x3 .ok 0b00 (zext16 m.bit) = if m = .lower then 0x30000000 else 0x30000001 := by
  cases m <;> rfl

theorem transact_encode_lutenc (c : CaseMode) (n : Nibble) :
    transact c (encode (.lutenc n)) = (c, rspWord 0x5 .ok 0b00 (zext16 (lutEnc n c))) := by
  rw [transact, decode_encode]

end Sys2Proof.Machine

/-!
### The statements of 70_reset_and_hazards.md

SUPPORT. The statements of 70_reset_and_hazards.md: reset held for several edges (rule R180), boot (rule R182), the
absence of hazards between commands (rule R183) and the capture of a response (rule R184).
-/
namespace Sys2Proof
open Machine

/-- Settles O2: by induction on the reset edges after the first. -/
theorem holdingResetIsOneReset : Obligations.HoldingResetIsOneReset := by
  unfold Obligations.HoldingResetIsOneReset
  exact fun s rest p ps => ⟨edges_resets s rest p ps, step_reset s p.1 p.2 rest⟩

/-- Settles O42: the second command runs in the state the first one left, so after SETCASE `m` it reads CASE `m`. -/
theorem noInterCommandHazard : Obligations.NoInterCommandHazard := by
  unfold Obligations.NoInterCommandHazard
  refine ⟨edges_two_commands, fun s m b n rest =>
    ⟨⟨_, edges_two_commands s _ _ rest, ?enc⟩, ⟨_, edges_two_commands s _ _ rest, ?lutenc⟩⟩⟩
  case enc =>
    rw [afterCommand_rsp, afterCommand_caseMode, transact_encode_setcase, transact_encode_enc, rspData_rspWord]
  case lutenc =>
    rw [afterCommand_rsp, afterCommand_caseMode, transact_encode_setcase, transact_encode_lutenc, rspData_rspWord]

/-- Settles O43: the next edge is an accept step, which answers anew, or an idle step, which keeps RSP. -/
theorem responseIsVisibleOneCycle : Obligations.ResponseIsVisibleOneCycle := by
  unfold Obligations.ResponseIsVisibleOneCycle
  intro s w
  exact ⟨afterCommand w s, step_present_command w s, outputs_afterCommand w s, capture_afterCommand w s,
    fun w' => ⟨_, step_present_command w' _, outputs_afterCommand w' _⟩, ⟨_, edge_idleIn _, rfl, rfl⟩⟩

/-- Settles O44: Construct is one SETCASE, and SETCASE 1 is accepted at the edge after reset. -/
theorem bootAndConstruct : Obligations.BootAndConstruct := by
  unfold Obligations.BootAndConstruct
  refine ⟨fun m s => ?construct, fun s rest => ⟨_, edges_resets s rest (false, 0) [], rfl⟩,
    fun s rest => ⟨_, edges_reset_command s false 0 _ rest, ?upper⟩⟩
  case construct =>
    rw [← rspWord_setcase]
    exact (step_present_command _ s).trans (congrArg _ (afterCommand_encode_setcase m s))
  case upper => exact congrArg Prod.fst (transact_encode_setcase .lower .upper)

end Sys2Proof
